-- ==== Sys2Proof/Word.lean ====
section
/-! DEFINITION. The widths of the machine: a cell, register or instruction is 16 bits (R7, R9, R10). -/

namespace Sys2Proof

/-- A cell of the memory image, a register or an instruction word: an unsigned 16-bit value (R7, R10). -/
abbrev Word := BitVec 16

/-- A byte of a byte stream, of a block file, or half of a cell (R67, R80). -/
abbrev Byte := BitVec 8

end Sys2Proof
end

