-- ==== Sys2Proof/Config.lean ====
section
/-! DEFINITION. What an instance fixes: the parameters the source fixes (R7), the parameters it leaves
open (R8), and the free values, which have no body so that nothing can be proved of them. -/

namespace Sys2Proof

/-- Which byte of a word comes first in a block file (R7, R80). -/
inductive ByteOrder where
  | lowFirst
  | highFirst
  deriving DecidableEq, Repr

/-- The parameters that R7 fixes, as one record: one field per row of its table. The widths that a type
carries are numerals in the types themselves; Laws/Config.lean proves each of them to be the record's. -/
structure Config.Parameters where
  /-- `W`, the bits of a cell, a register and an instruction. -/
  width : Nat
  /-- `CORE`, the memory capacity in cells. -/
  core : Nat
  /-- `SP0`, the data-stack base. -/
  sp0 : Word
  /-- `RP0`, the return-stack base. -/
  rp0 : Word
  /-- `CODE_TOP`, the number of cells that a call or branch field reaches. -/
  codeTop : Nat
  /-- The width of a literal's payload. -/
  literalBits : Nat
  /-- The width of an address field. -/
  addressBits : Nat
  /-- The width of the ALU opcode field. -/
  opcodeBits : Nat
  /-- How many ALU opcodes are defined: 0 to 21. -/
  definedOps : Nat
  /-- How many stack-delta fields an ALU word has. -/
  deltaFields : Nat
  /-- The width of a stack-delta field. -/
  deltaBits : Nat
  /-- What each value of a stack-delta field selects. -/
  deltaTable : List Int
  /-- The modulus of register arithmetic. -/
  registerModulus : Nat
  /-- The modulus of a memory index: `CORE`. -/
  indexModulus : Nat
  /-- The order of a word's bytes in a block file. -/
  fileOrder : ByteOrder
  /-- How many words a load reads: `CORE`. -/
  loadWords : Nat
  /-- How many words opcode 18 saves: `CORE`. -/
  saveWords : Nat
  deriving DecidableEq, Repr

/-- The machine's parameters (R7). -/
def Config.params : Config.Parameters :=
  { width := 16
    core := 32768
    sp0 := 8192
    rp0 := 8256
    codeTop := 8192
    literalBits := 15
    addressBits := 13
    opcodeBits := 5
    definedOps := 22
    deltaFields := 2
    deltaBits := 2
    deltaTable := [0, 1, -2, -1]
    registerModulus := 65536
    indexModulus := 32768
    fileOrder := .lowFirst
    loadWords := 32768
    saveWords := 32768 }

@[simp] theorem Config.params_width : Config.params.width = 16 := rfl
@[simp] theorem Config.params_core : Config.params.core = 32768 := rfl
@[simp] theorem Config.params_sp0 : Config.params.sp0 = 8192#16 := rfl
@[simp] theorem Config.params_rp0 : Config.params.rp0 = 8256#16 := rfl
@[simp] theorem Config.params_codeTop : Config.params.codeTop = 8192 := rfl
@[simp] theorem Config.params_literalBits : Config.params.literalBits = 15 := rfl
@[simp] theorem Config.params_addressBits : Config.params.addressBits = 13 := rfl
@[simp] theorem Config.params_opcodeBits : Config.params.opcodeBits = 5 := rfl
@[simp] theorem Config.params_definedOps : Config.params.definedOps = 22 := rfl
@[simp] theorem Config.params_deltaFields : Config.params.deltaFields = 2 := rfl
@[simp] theorem Config.params_deltaBits : Config.params.deltaBits = 2 := rfl
@[simp] theorem Config.params_deltaTable : Config.params.deltaTable = [0, 1, -2, -1] := rfl
@[simp] theorem Config.params_registerModulus : Config.params.registerModulus = 65536 := rfl
@[simp] theorem Config.params_indexModulus : Config.params.indexModulus = 32768 := rfl
@[simp] theorem Config.params_fileOrder : Config.params.fileOrder = .lowFirst := rfl
@[simp] theorem Config.params_loadWords : Config.params.loadWords = 32768 := rfl
@[simp] theorem Config.params_saveWords : Config.params.saveWords = 32768 := rfl

/-- `ALU_LAYOUT` (R8, R104): for each field of an ALU word, the number of its lowest bit. -/
structure AluLayout where
  op : Nat
  t2n : Nat
  t2r : Nat
  n2a : Nat
  r2p : Nat
  rd : Nat
  dd : Nat
  deriving DecidableEq, Repr

/-- The default of `ALU_LAYOUT`, the layout of R104 (the spec's decision D1; log entry 1). -/
def Config.aluLayout : AluLayout :=
  { op := 8, t2n := 7, t2r := 6, n2a := 5, r2p := 4, rd := 2, dd := 0 }

/-- `SaveOutcome` (R8, R85): whether the save numbered by the argument succeeds. A FREE VALUE: the spec
calls it a draw that the program cannot see (D13; log entry 5). -/
opaque Config.saveSucceeds : Nat → Bool

/-- What the file at `BLOCK_PATH` holds after the save numbered by the argument has failed; `none` stands
for no file. A FREE VALUE: the spec does not specify it (R85; log entry 5). -/
opaque Config.failedSaveFile : Nat → Option (List Byte)

/-- `CLEAN_STOP_CODE` (R8, R267): the number by which the host layer reports a clean stop. A FREE VALUE:
the spec leaves it OPEN (D10; log entry 6). -/
opaque Config.cleanStopCode : Int

/-- `BLOCK_PATH` (R8): where opcode 18 saves to. The host configures it and the spec gives no default
(log entry 12). -/
opaque Config.blockPath : String

end Sys2Proof
end

