-- ==== Sys2Proof/Syntax.lean ====
section
/-! DEFINITION. The instructions as syntax: one constructor of `Instr` per row of the opcode table
(R101 to R112), and the assembler lines and pseudo-instructions of R113 to R115. -/

namespace Sys2Proof

/-- What a two-bit delta field selects from the table 0, +1, -2, -1 (R105). -/
inductive Delta where
  | zero
  | plusOne
  | minusTwo
  | minusOne
  deriving DecidableEq, Repr

/-- The fields of an ALU word below its opcode (R104): the three store flags, the return flag and the
two stack deltas. An absent flag is false and an absent delta is zero (R113). -/
structure AluFields where
  /-- `T2N`, the data-stack-store flag. -/
  t2n : Bool := false
  /-- `T2R`, the return-stack-store flag. -/
  t2r : Bool := false
  /-- `N2A`, the memory-store flag. -/
  n2a : Bool := false
  /-- `R2P`, the return flag. -/
  r2p : Bool := false
  /-- The return-stack delta. -/
  rd : Delta := .zero
  /-- The data-stack delta. -/
  dd : Delta := .zero
  deriving DecidableEq, Repr

/-- One constructor per row of the opcode table (R101, R109, R110). An ALU row keeps every field the
word holds; a reserved row keeps them too, so that no two words are one instruction (R110, R200). -/
inductive Instr where
  /-- `lit n` (R143). -/
  | lit (n : BitVec 15)
  /-- Opcode 0, `T` (R180). -/
  | aluT (f : AluFields)
  /-- Opcode 1, `N` (R181). -/
  | aluN (f : AluFields)
  /-- Opcode 2, `T+N` (R182). -/
  | aluAdd (f : AluFields)
  /-- Opcode 3, `T&N` (R183). -/
  | aluAnd (f : AluFields)
  /-- Opcode 4, `T|N` (R184). -/
  | aluOr (f : AluFields)
  /-- Opcode 5, `T^N` (R185). -/
  | aluXor (f : AluFields)
  /-- Opcode 6, `~T` (R186). -/
  | aluNot (f : AluFields)
  /-- Opcode 7, `N=T` (R187). -/
  | aluEq (f : AluFields)
  /-- Opcode 8, `N<T`, signed (R188). -/
  | aluLt (f : AluFields)
  /-- Opcode 9, `N>>T` (R189). -/
  | aluShr (f : AluFields)
  /-- Opcode 10, `T-1` (R190). -/
  | aluDec (f : AluFields)
  /-- Opcode 11, `R` (R191). -/
  | aluR (f : AluFields)
  /-- Opcode 12, `[T]` (R192). -/
  | aluLoad (f : AluFields)
  /-- Opcode 13, `N<<T` (R193). -/
  | aluShl (f : AluFields)
  /-- Opcode 14, `depth` (R194). -/
  | aluDepth (f : AluFields)
  /-- Opcode 15, `Nu<T`, unsigned (R195). -/
  | aluULt (f : AluFields)
  /-- Opcode 16, `rdepth` (R196). -/
  | aluRDepth (f : AluFields)
  /-- Opcode 17, `T0=` (R197). -/
  | aluZeroEq (f : AluFields)
  /-- Opcode 18, `save` (R230). -/
  | aluSave (f : AluFields)
  /-- Opcode 19, `tx` (R231). -/
  | aluTx (f : AluFields)
  /-- Opcode 20, `rx` (R232). -/
  | aluRx (f : AluFields)
  /-- Opcode 21, `bye` (R233). -/
  | aluBye (f : AluFields)
  /-- Reserved opcode 22 (R110, R200). -/
  | reserved22 (f : AluFields)
  /-- Reserved opcode 23 (R110, R200). -/
  | reserved23 (f : AluFields)
  /-- Reserved opcode 24 (R110, R200). -/
  | reserved24 (f : AluFields)
  /-- Reserved opcode 25 (R110, R200). -/
  | reserved25 (f : AluFields)
  /-- Reserved opcode 26 (R110, R200). -/
  | reserved26 (f : AluFields)
  /-- Reserved opcode 27 (R110, R200). -/
  | reserved27 (f : AluFields)
  /-- Reserved opcode 28 (R110, R200). -/
  | reserved28 (f : AluFields)
  /-- Reserved opcode 29 (R110, R200). -/
  | reserved29 (f : AluFields)
  /-- Reserved opcode 30 (R110, R200). -/
  | reserved30 (f : AluFields)
  /-- Reserved opcode 31 (R110, R200). -/
  | reserved31 (f : AluFields)
  /-- `call a` (R150). -/
  | call (a : BitVec 13)
  /-- `0branch a` (R152). -/
  | zbranch (a : BitVec 13)
  /-- `branch a` (R154). -/
  | branch (a : BitVec 13)
  deriving DecidableEq, Repr

/-- The opcode number and the fields of an ALU word, and nothing for the other four classes (R101, R109). -/
def Instr.aluForm? : Instr → Option (Nat × AluFields)
  | .aluT f => some (0, f)
  | .aluN f => some (1, f)
  | .aluAdd f => some (2, f)
  | .aluAnd f => some (3, f)
  | .aluOr f => some (4, f)
  | .aluXor f => some (5, f)
  | .aluNot f => some (6, f)
  | .aluEq f => some (7, f)
  | .aluLt f => some (8, f)
  | .aluShr f => some (9, f)
  | .aluDec f => some (10, f)
  | .aluR f => some (11, f)
  | .aluLoad f => some (12, f)
  | .aluShl f => some (13, f)
  | .aluDepth f => some (14, f)
  | .aluULt f => some (15, f)
  | .aluRDepth f => some (16, f)
  | .aluZeroEq f => some (17, f)
  | .aluSave f => some (18, f)
  | .aluTx f => some (19, f)
  | .aluRx f => some (20, f)
  | .aluBye f => some (21, f)
  | .reserved22 f => some (22, f)
  | .reserved23 f => some (23, f)
  | .reserved24 f => some (24, f)
  | .reserved25 f => some (25, f)
  | .reserved26 f => some (26, f)
  | .reserved27 f => some (27, f)
  | .reserved28 f => some (28, f)
  | .reserved29 f => some (29, f)
  | .reserved30 f => some (30, f)
  | .reserved31 f => some (31, f)
  | .lit _ => none
  | .call _ => none
  | .zbranch _ => none
  | .branch _ => none

/-- The pseudo-instructions of R114, by the spec's own names. -/
inductive Pseudo where
  | dup | drop | nip | swap | over | plus | and | or | xor | invert | equal | less | rshift | oneMinus
  | rFetch | rFrom | toR | rdrop | fetch | store | lshift | depth | uLess | rdepth | zeroEqual | save
  | emit | key | bye | exit
  deriving DecidableEq, Repr

/-- One line of assembler source, its numbers and labels already read (R113). -/
inductive AsmLine where
  | lit (n : Nat)
  | call (a : Nat)
  | zbranch (a : Nat)
  | branch (a : Nat)
  | alu (op : Nat) (f : AluFields)
  | pseudo (p : Pseudo)
  deriving DecidableEq, Repr

end Sys2Proof
end

