-- ==== Sys2Proof/WellFormed.lean ====
section
/-! DEFINITION. Which terms of the syntax are well formed. The operands of `Instr` carry their widths in
their types, so the one check left for an instruction is that its opcode is defined (R110, R111). An
assembler line holds plain numbers, which must fit their fields (R113, R115). A layout of the ALU word
must give every field bits of its own below the class (R104). -/

namespace Sys2Proof

/-- An instruction the ISA defines: every one but the ALU words with a reserved opcode (R110, R111). -/
def Instr.wellFormed (i : Instr) : Bool :=
  match i.aluForm? with
  | none => true
  | some (op, _) => op < Config.params.definedOps

/-- An assembler line that can be assembled: the number fits the field it goes into (R113, R115).
DESIGN CHOICE: an `alu` line names a defined opcode. R113 takes the number from the table of R109, whose last
row is the reserved 22 to 31, and does not say whether a line may name one of these (log entry 12). -/
def AsmLine.wellFormed : AsmLine → Bool
  | .lit n => n < 2 ^ Config.params.width
  | .call a => a < Config.params.codeTop
  | .zbranch a => a < Config.params.codeTop
  | .branch a => a < Config.params.codeTop
  | .alu op _ => op < Config.params.definedOps
  | .pseudo _ => true

/-- Each field of the ALU word as the number of its lowest bit and its width (R104, R105). -/
def AluLayout.spans (L : AluLayout) : List (Nat × Nat) :=
  [(L.op, Config.params.opcodeBits), (L.t2n, 1), (L.t2r, 1), (L.n2a, 1), (L.r2p, 1),
    (L.rd, Config.params.deltaBits), (L.dd, Config.params.deltaBits)]

/-- A layout is well formed when every field lies in bits 12:0 and no two fields share a bit (R104). -/
def AluLayout.wellFormed (L : AluLayout) : Bool :=
  L.spans.all (fun p => p.1 + p.2 ≤ 13) &&
    decide (L.spans.Pairwise (fun p q => p.1 + p.2 ≤ q.1 ∨ q.1 + q.2 ≤ p.1))

end Sys2Proof
end

