-- ==== Sys2Proof/Decode.lean ====
section
/-! DEFINITION. The decoder and the encoder (R100 to R107), the byte order of a word at the block-file
boundary (R80), and the table word the host gives. Decoding is total on words: every word is an
instruction, the reserved ones under names of their own. On bytes it refuses, by name, a word cut short. -/

namespace Sys2Proof

/-- The low byte of a word, bits 7:0. -/
def lowByte (w : Word) : Byte := w.extractLsb' 0 8

/-- The high byte of a word, bits 15:8. -/
def highByte (w : Word) : Byte := w.extractLsb' 8 8

/-- A word from its two bytes: `lo | (hi << 8)` (R81). -/
def wordOfBytes (lo hi : Byte) : Word := lo.setWidth 16 ||| (hi.setWidth 16 <<< 8)

/-- The two bytes of a word as a block file holds them (R80, R84). -/
def fileBytes (w : Word) : List Byte :=
  match Config.params.fileOrder with
  | .lowFirst => [lowByte w, highByte w]
  | .highFirst => [highByte w, lowByte w]

/-- A word from its first and its second byte in a block file (R80, R81). -/
def fileWord (first second : Byte) : Word :=
  match Config.params.fileOrder with
  | .lowFirst => wordOfBytes first second
  | .highFirst => wordOfBytes second first

/-- The delta a two-bit field selects (R105). -/
def Delta.ofBits (b : BitVec 2) : Delta :=
  match b.toNat with
  | 0 => .zero
  | 1 => .plusOne
  | 2 => .minusTwo
  | _ => .minusOne

/-- The two-bit field that selects a delta (R105). -/
def Delta.bits : Delta → BitVec 2
  | .zero => 0
  | .plusOne => 1
  | .minusTwo => 2
  | .minusOne => 3

/-- The fields of an ALU word below its opcode, under a layout (R104). -/
def aluFieldsOf (L : AluLayout) (w : Word) : AluFields :=
  { t2n := w.getLsbD L.t2n
    t2r := w.getLsbD L.t2r
    n2a := w.getLsbD L.n2a
    r2p := w.getLsbD L.r2p
    rd := Delta.ofBits (w.extractLsb' L.rd 2)
    dd := Delta.ofBits (w.extractLsb' L.dd 2) }

/-- The ALU instruction of an opcode number (R109, R110). The opcode field has five bits, so the last
case is reached by 31 alone. -/
def aluInstr (op : Nat) (f : AluFields) : Instr :=
  match op with
  | 0 => .aluT f
  | 1 => .aluN f
  | 2 => .aluAdd f
  | 3 => .aluAnd f
  | 4 => .aluOr f
  | 5 => .aluXor f
  | 6 => .aluNot f
  | 7 => .aluEq f
  | 8 => .aluLt f
  | 9 => .aluShr f
  | 10 => .aluDec f
  | 11 => .aluR f
  | 12 => .aluLoad f
  | 13 => .aluShl f
  | 14 => .aluDepth f
  | 15 => .aluULt f
  | 16 => .aluRDepth f
  | 17 => .aluZeroEq f
  | 18 => .aluSave f
  | 19 => .aluTx f
  | 20 => .aluRx f
  | 21 => .aluBye f
  | 22 => .reserved22 f
  | 23 => .reserved23 f
  | 24 => .reserved24 f
  | 25 => .reserved25 f
  | 26 => .reserved26 f
  | 27 => .reserved27 f
  | 28 => .reserved28 f
  | 29 => .reserved29 f
  | 30 => .reserved30 f
  | _ => .reserved31 f

/-- The decoder under a layout of the ALU word: the classes by their top bits, in the order of R101. -/
def decodeWith (L : AluLayout) (w : Word) : Instr :=
  if w.getLsbD 15 then .lit (w.extractLsb' 0 15)
  else if w &&& 0xE000#16 = 0x6000#16 then aluInstr (w.extractLsb' L.op 5).toNat (aluFieldsOf L w)
  else if w.getLsbD 14 then .call (w.extractLsb' 0 13)
  else if w.getLsbD 13 then .zbranch (w.extractLsb' 0 13)
  else .branch (w.extractLsb' 0 13)

/-- The decoder (R101 to R105, R110). -/
def decode (w : Word) : Instr := decodeWith Config.aluLayout w

/-- Why a byte sequence holds no instruction: it ends before the word does (R100). No word is refused. -/
inductive DecodeError where
  | truncated
  deriving DecidableEq, Repr

/-- The instruction at the head of a byte sequence, each word as a block file holds it (R80), and the bytes
after it. -/
def decodeBytes : List Byte → Except DecodeError (Instr × List Byte)
  | first :: second :: rest => .ok (decode (fileWord first second), rest)
  | _ => .error .truncated

/-- The instruction the decoder reads from an opcode-table word of `nbits` bits. Every instruction has
16 bits (R100): a table word of more bits is none. -/
def decodeTableWord (nbits w : Nat) : Option Instr :=
  if nbits ≤ 16 then
    let word : Word := BitVec.ofNat 16 (w % 2 ^ nbits)
    match decodeBytes (fileBytes word) with
    | .ok (i, _) => some i
    | .error _ => none
  else none

/-- A one-bit field put at bit `n` of a word. -/
def flagBit (b : Bool) (n : Nat) : Word := if b then 1#16 <<< n else 0#16

/-- The ALU word of an opcode and its fields, under a layout (R104, R113). -/
def encodeAlu (L : AluLayout) (op : BitVec 5) (f : AluFields) : Word :=
  0x6000#16 ||| (op.setWidth 16 <<< L.op) ||| flagBit f.t2n L.t2n ||| flagBit f.t2r L.t2r |||
    flagBit f.n2a L.n2a ||| flagBit f.r2p L.r2p ||| (f.rd.bits.setWidth 16 <<< L.rd) |||
    (f.dd.bits.setWidth 16 <<< L.dd)

/-- The encoder under a layout of the ALU word (R102 to R104). -/
def encodeWith (L : AluLayout) : Instr → Word
  | .lit n => 0x8000#16 ||| n.setWidth 16
  | .aluT f => encodeAlu L 0 f
  | .aluN f => encodeAlu L 1 f
  | .aluAdd f => encodeAlu L 2 f
  | .aluAnd f => encodeAlu L 3 f
  | .aluOr f => encodeAlu L 4 f
  | .aluXor f => encodeAlu L 5 f
  | .aluNot f => encodeAlu L 6 f
  | .aluEq f => encodeAlu L 7 f
  | .aluLt f => encodeAlu L 8 f
  | .aluShr f => encodeAlu L 9 f
  | .aluDec f => encodeAlu L 10 f
  | .aluR f => encodeAlu L 11 f
  | .aluLoad f => encodeAlu L 12 f
  | .aluShl f => encodeAlu L 13 f
  | .aluDepth f => encodeAlu L 14 f
  | .aluULt f => encodeAlu L 15 f
  | .aluRDepth f => encodeAlu L 16 f
  | .aluZeroEq f => encodeAlu L 17 f
  | .aluSave f => encodeAlu L 18 f
  | .aluTx f => encodeAlu L 19 f
  | .aluRx f => encodeAlu L 20 f
  | .aluBye f => encodeAlu L 21 f
  | .reserved22 f => encodeAlu L 22 f
  | .reserved23 f => encodeAlu L 23 f
  | .reserved24 f => encodeAlu L 24 f
  | .reserved25 f => encodeAlu L 25 f
  | .reserved26 f => encodeAlu L 26 f
  | .reserved27 f => encodeAlu L 27 f
  | .reserved28 f => encodeAlu L 28 f
  | .reserved29 f => encodeAlu L 29 f
  | .reserved30 f => encodeAlu L 30 f
  | .reserved31 f => encodeAlu L 31 f
  | .call a => 0x4000#16 ||| a.setWidth 16
  | .zbranch a => 0x2000#16 ||| a.setWidth 16
  | .branch a => 0x0000#16 ||| a.setWidth 16

/-- The encoder (R102 to R104). -/
def encode (i : Instr) : Word := encodeWith Config.aluLayout i

end Sys2Proof
end

