-- ==== Sys2Proof/Machine/State.lean ====
section
/-! DEFINITION. What the machine holds (R30 to R48), why a step can stop, and the state after reset. -/

namespace Sys2Proof.Machine

/-- The memory image, as the bytes that differ from zero, by rising byte address. Cell `k` is the byte at
`2 * k`, its bits 7:0, and the byte at `2 * k + 1`, its bits 15:8, as in a block file (R41, R80; log
entry 10). -/
abbrev Memory := List Host.Cell

/-- The input stream (R45, R240): the bytes the host has supplied, how many of them the machine has
consumed, and whether the host has closed the stream. -/
structure InStream where
  bytes : List Byte
  pos : Nat
  closed : Bool
  deriving DecidableEq, Repr

/-- How the instance stands: no run entered yet, a run in progress (`running`, `waiting`), or a run that
ended with one of the outcomes of R15 (R268, R280; log entries 2 and 13). -/
inductive RunStatus where
  /-- The instance exists and no run of it has been entered (R280, R300). -/
  | idle
  /-- The loop goes on: the outcome `Continue`. -/
  | running
  /-- The last step met an input stream that had no byte to give: the outcome `Wait` (R240, R276). -/
  | waiting
  /-- Opcode 21 ended the run with this result (R233, R266). -/
  | halted (result : Word)
  /-- Opcode 20 met the end of input (R232, R267). -/
  | cleanStop
  /-- The model's fault on this instruction word ended the run (R200, R261, R268). -/
  | faulted (word : Word)
  deriving DecidableEq, Repr

/-- The architectural state (R30), the devices an instruction acts on (R273), and how the run stands. -/
structure State where
  /-- The word index of the next instruction (R37). -/
  pc : Word
  /-- The top of the data stack (R31). -/
  tos : Word
  /-- The word index of the data stack's top memory cell, which holds the second item (R32). -/
  sp : Word
  /-- The word index of the return stack's top memory cell (R33). -/
  rp : Word
  /-- The memory image (R41). -/
  mem : Memory
  /-- The input byte stream (R240). -/
  input : InStream
  /-- The bytes emitted so far, oldest first; their number is the output stream's position (R45, R241). -/
  output : List Byte
  /-- What the file at `BLOCK_PATH` holds as this instance has written it (R84, R230). -/
  blockFile : Option (List Byte)
  /-- The model's own count of saves: the argument of the next draw of `SaveOutcome` (log entry 5). -/
  saves : Nat
  /-- How many failed saves have been reported on the diagnostic channel (R85). -/
  diagnostics : Nat
  /-- How the run stands (R15). -/
  status : RunStatus
  deriving DecidableEq, Repr

/-- Why a step stops the machine. -/
inductive Fault where
  /-- Raised by the reserved ALU opcodes 22 to 31, with the instruction word (R200, R261). Safe: the spec
  gives these words no meaning, and no state follows (log entry 7). -/
  | reservedAluOp (word : Word)
  /-- Raised by `step` on an instance with no run in progress: one not entered yet, or one that has ended
  and has no further step (R264, R268, R280). Safe: no state follows (log entry 2). -/
  | notRunning
  deriving DecidableEq, Repr

/-- Why a step has no meaning. -/
inductive Refusal where
  /-- Raised by an arm of `exec` whose instruction has no meaning yet; no arm is one. Safe. -/
  | notModelled (mnemonic : String)
  deriving DecidableEq, Repr

/-- The machine right after the creation of an instance and its entry into a run (R48, R300, R301). The
streams and the block file are the host's; their values here are the model's (log entries 4 and 5). -/
def State.reset : State :=
  { pc := 0
    tos := 0
    sp := Config.params.sp0
    rp := Config.params.rp0
    mem := []
    input := { bytes := [], pos := 0, closed := false }
    output := []
    blockFile := none
    saves := 0
    diagnostics := 0
    status := .running }

end Sys2Proof.Machine
end

