-- ==== Sys2Proof/Machine/Ops.lean ====
section
/-! DEFINITION. The named operations over memory and registers: the address translator (R60 to R64), the
memory image byte by byte and cell by cell (R12, R67), the registers, the two byte streams (R240, R241),
and the ways a run stops (R266 to R268). The machine takes no exceptions (R260, R264), so there is no
exception entry or return; the model's one fault is raised here. -/

namespace Sys2Proof.Machine

/-! ### Address translation -/

/-- A word index reduced to a cell index (R12, R63). -/
def idx (w : Word) : Nat := w.toNat % Config.params.indexModulus

/-- A byte address to a word index: a logical right shift by one (R13, R60). -/
def b2w (a : Word) : Word := a >>> 1

/-- A word index to a byte address, modulo 2^16 (R13, R61). -/
def w2b (w : Word) : Word := w <<< 1

/-! ### The memory image -/

/-- What a byte of memory that is not listed reads as: the zero fill (R42, R90). -/
def Memory.unlisted : Byte := 0

/-- The byte at a byte address of the image. -/
def Memory.readByte (m : Memory) (a : Nat) : Byte :=
  match m with
  | [] => Memory.unlisted
  | c :: rest => if c.1 = a then c.2 else Memory.readByte rest a

/-- The image with no entry at an address. -/
def Memory.erase (m : Memory) (a : Nat) : Memory := m.filter (fun c => c.1 != a)

/-- The image with an entry put in front of the first entry of a higher address. -/
def Memory.insert (m : Memory) (a : Nat) (v : Byte) : Memory :=
  match m with
  | [] => [(a, v)]
  | c :: rest => if a < c.1 then (a, v) :: c :: rest else c :: Memory.insert rest a v

/-- The image with one byte written. Writing what an unlisted address reads as removes the entry. -/
def Memory.writeByte (m : Memory) (a : Nat) (v : Byte) : Memory :=
  if v = Memory.unlisted then m.erase a else (m.erase a).insert a v

/-- The cell at a cell index. -/
def Memory.readCell (m : Memory) (k : Nat) : Word :=
  wordOfBytes (m.readByte (2 * k)) (m.readByte (2 * k + 1))

/-- The image with one cell written. -/
def Memory.writeCell (m : Memory) (k : Nat) (v : Word) : Memory :=
  (m.writeByte (2 * k) (lowByte v)).writeByte (2 * k + 1) (highByte v)

/-- The canonical form of the image: addresses rise strictly and lie in the image, and no entry equals
what an unlisted address reads as. -/
def Memory.wf (m : Memory) : Bool :=
  decide (m.Pairwise (fun c d => c.1 < d.1)) &&
    m.all (fun c => decide (c.1 < 2 * Config.params.core) && c.2 != Memory.unlisted)

/-! ### Registers and fields of the state -/

def State.setPc (s : State) (v : Word) : State := { s with pc := v }
def State.setTos (s : State) (v : Word) : State := { s with tos := v }
def State.setSp (s : State) (v : Word) : State := { s with sp := v }
def State.setRp (s : State) (v : Word) : State := { s with rp := v }
def State.setMem (s : State) (m : Memory) : State := { s with mem := m }
def State.setInput (s : State) (i : InStream) : State := { s with input := i }
def State.setOutput (s : State) (o : List Byte) : State := { s with output := o }
def State.setBlockFile (s : State) (b : Option (List Byte)) : State := { s with blockFile := b }
def State.setSaves (s : State) (n : Nat) : State := { s with saves := n }
def State.setDiagnostics (s : State) (n : Nat) : State := { s with diagnostics := n }
def State.setStatus (s : State) (r : RunStatus) : State := { s with status := r }

/-! ### Memory through the state -/

/-- `MemRead(w, 1)` (R12). -/
def State.readCell (s : State) (w : Word) : Word := s.mem.readCell (idx w)

/-- `MemWrite(w, 1, v)` (R12). -/
def State.writeCell (s : State) (w v : Word) : State := s.setMem (s.mem.writeCell (idx w) v)

/-- The instruction word at `pc` (R64). -/
def State.fetch (s : State) : Word := s.readCell s.pc

/-- A push into the data stack's memory: the pointer grows, then the cell is written (R34). -/
def State.pushData (s : State) (v : Word) : State := (s.setSp (s.sp + 1)).writeCell (s.sp + 1) v

/-- A push on the return stack: the pointer grows, then the cell is written (R34). -/
def State.pushReturn (s : State) (v : Word) : State := (s.setRp (s.rp + 1)).writeCell (s.rp + 1) v

/-- The pop of 0branch: the top becomes the second item, then the pointer shrinks (R34, R152). -/
def State.popData (s : State) : State := (s.setTos (s.readCell s.sp)).setSp (s.sp - 1)

/-- The next instruction in sequence (R37, R100). -/
def State.advance (s : State) : State := s.setPc (s.pc + 1)

/-! ### The byte streams -/

/-- What a read of the input stream answers (R240): a byte, the end of input, or nothing yet. -/
inductive InAnswer where
  | byte (b : Byte)
  | eof
  | pending
  deriving DecidableEq, Repr

/-- `InRead()` as the stream stands (R240): the next byte the host has supplied; with none left, the end
of input if the stream is closed, and else nothing yet. -/
def InStream.answer (i : InStream) : InAnswer :=
  match i.bytes[i.pos]? with
  | some b => .byte b
  | none => if i.closed then .eof else .pending

/-- The stream one byte further on (R240). -/
def InStream.advance (i : InStream) : InStream := { i with pos := i.pos + 1 }

/-- The state after `InRead()` has answered a byte. -/
def State.consumeByte (s : State) : State := s.setInput s.input.advance

/-- `OutWrite(b)`: it always succeeds (R241). -/
def State.outWrite (s : State) (b : Byte) : State := s.setOutput (s.output ++ [b])

/-! ### How a run stops, waits and goes on -/

/-- Whether a run is in progress, so that the loop takes a step: a wait is no end (R268). -/
def State.canStep (s : State) : Bool :=
  match s.status with
  | .running => true
  | .waiting => true
  | .idle => false
  | .halted _ => false
  | .cleanStop => false
  | .faulted _ => false

/-- The outcome `Halt(v)`: nothing but the status changes (R233, R264, R266). -/
def State.halt (s : State) (v : Word) : State := s.setStatus (.halted v)

/-- The outcome `CleanStop`: nothing but the status changes (R232, R264, R267). -/
def State.cleanStop (s : State) : State := s.setStatus .cleanStop

/-- The outcome `Wait`: nothing but the status changes, so the next step tries the same instruction
again (R240, R276; log entry 3). -/
def State.wait (s : State) : State := s.setStatus .waiting

/-- The machine at the start of an iteration: a wait is over once the loop goes on (R276). -/
def State.resume (s : State) : State := s.setStatus .running

/-- `raise ReservedAluOp(I)`: `I` is the word that `pc` addresses, whatever the layout it was decoded under
(R141, R200, R261). -/
def raiseReserved (s : State) : Host.Outcome State Fault Refusal := .fault (.reservedAluOp s.fetch)

end Sys2Proof.Machine
end

