-- ==== Sys2Proof/Machine/Operands.lean ====
section
/-! DEFINITION. The operand forms: the immediates (R106, R107), the implicit operands of an ALU word
(R108, R170), the deltas (R105) and the signed reading of a value (R10). -/

namespace Sys2Proof.Machine

/-- The literal immediate, zero-extended (R106). -/
def litValue (n : BitVec 15) : Word := n.setWidth 16

/-- The address immediate, zero-extended: an absolute word index (R107). -/
def targetOf (a : BitVec 13) : Word := a.setWidth 16

/-- An input byte as a cell, zero-extended (R232). -/
def byteValue (b : Byte) : Word := b.setWidth 16

/-- The 16-bit addend of a delta: the entry of the delta table that its bits select (R7, R105). -/
def deltaAddend (d : Delta) : Word := BitVec.ofInt 16 (Config.params.deltaTable.getD d.bits.toNat 0)

/-- A value read as two's complement (R10). -/
def s16 (v : Word) : Int := v.toInt

/-- `N`, the next on stack: the cell at `sp` (R108, R170). -/
def State.nos (s : State) : Word := s.readCell s.sp

/-- The return-stack top: the cell at `rp` (R191). -/
def State.rtop (s : State) : Word := s.readCell s.rp

/-- The cell that `tos` addresses as a byte address (R192). -/
def State.atTos (s : State) : Word := s.readCell (b2w s.tos)

/-- The data stack's depth: `sp` less its base (R194). -/
def State.depth (s : State) : Word := s.sp - Config.params.sp0

/-- The return stack's depth: `rp` less its base (R196). -/
def State.rdepth (s : State) : Word := s.rp - Config.params.rp0

end Sys2Proof.Machine
end

