-- ==== Sys2Proof/Machine/AluSteps.lean ====
section
/-! DEFINITION. The common sequence of every ALU instruction: steps a to f, in their fixed order (R170
to R177). Each step sees the writes of the steps before it (R16, R178). -/

namespace Sys2Proof.Machine

/-- Step a: both stack deltas (R171). -/
def State.stepA (s : State) (f : AluFields) : State :=
  (s.setSp (s.sp + deltaAddend f.dd)).setRp (s.rp + deltaAddend f.rd)

/-- Step b: the return-stack store of the old top, at the `rp` of step a (R172). -/
def State.stepB (s : State) (f : AluFields) (top : Word) : State :=
  if f.t2r then s.writeCell s.rp top else s

/-- Step c: the data-stack store of the old top, at the `sp` of step a (R173). -/
def State.stepC (s : State) (f : AluFields) (top : Word) : State :=
  if f.t2n then s.writeCell s.sp top else s

/-- Step d: the memory store of the old next-on-stack, at the byte address in the old top (R174). -/
def State.stepD (s : State) (f : AluFields) (top next : Word) : State :=
  if f.n2a then s.writeCell (b2w top) next else s

/-- Step e: the commit of the new top (R175). -/
def State.stepE (s : State) (newTop : Word) : State := s.setTos newTop

/-- Step f: the next `pc`, from the return stack as the steps before left it, or the next in sequence
(R176). -/
def State.stepF (s : State) (f : AluFields) : State :=
  if f.r2p then s.setPc (b2w (s.readCell s.rp)) else s.advance

/-- Steps a to f, with the snapshots of the old top and next-on-stack taken before them (R170, R177). -/
def State.aluSteps (s : State) (f : AluFields) (newTop : Word) : State :=
  let top := s.tos
  let next := s.nos
  let a := s.stepA f
  let b := a.stepB f top
  let c := b.stepC f top
  let d := c.stepD f top next
  let e := d.stepE newTop
  e.stepF f

end Sys2Proof.Machine
end

