-- ==== Sys2Proof/Machine/Flags.lean ====
section
/-! DEFINITION. The machine has no flags (R39): a comparison leaves a cell, all ones or zero. These are
the comparisons of opcodes 7, 8, 15 and 17. -/

namespace Sys2Proof.Machine

/-- A truth value as a cell: 0xFFFF or 0x0000 (R10, R39). -/
def mask (b : Bool) : Word := if b then 0xFFFF else 0x0000

/-- `N=T` (R187). -/
def eqMask (n t : Word) : Word := mask (t == n)

/-- `N<T`, signed (R188). -/
def ltMask (n t : Word) : Word := mask (decide (s16 n < s16 t))

/-- `Nu<T`, unsigned (R195). -/
def ultMask (n t : Word) : Word := mask (decide (n.toNat < t.toNat))

/-- `T0=` (R197). -/
def zeroMask (t : Word) : Word := mask (t == 0)

end Sys2Proof.Machine
end

