-- ==== Sys2Proof/Machine/Alu.lean ====
section
/-! DEFINITION. The meanings of ALU opcodes 0 to 17 (41_alu.md): each gives its new top to the common
steps a to f. -/

namespace Sys2Proof.Machine

/-- Opcode 0, `T` (R180). -/
def execAluT (f : AluFields) (s : State) : Host.Outcome State Fault Refusal :=
  .next (s.aluSteps f s.tos)

/-- Opcode 1, `N` (R181). -/
def execAluN (f : AluFields) (s : State) : Host.Outcome State Fault Refusal :=
  .next (s.aluSteps f s.nos)

/-- Opcode 2, `T+N` (R182). -/
def execAluAdd (f : AluFields) (s : State) : Host.Outcome State Fault Refusal :=
  .next (s.aluSteps f (s.tos + s.nos))

/-- Opcode 3, `T&N` (R183). -/
def execAluAnd (f : AluFields) (s : State) : Host.Outcome State Fault Refusal :=
  .next (s.aluSteps f (s.tos &&& s.nos))

/-- Opcode 4, `T|N` (R184). -/
def execAluOr (f : AluFields) (s : State) : Host.Outcome State Fault Refusal :=
  .next (s.aluSteps f (s.tos ||| s.nos))

/-- Opcode 5, `T^N` (R185). -/
def execAluXor (f : AluFields) (s : State) : Host.Outcome State Fault Refusal :=
  .next (s.aluSteps f (s.tos ^^^ s.nos))

/-- Opcode 6, `~T` (R186). -/
def execAluNot (f : AluFields) (s : State) : Host.Outcome State Fault Refusal :=
  .next (s.aluSteps f (~~~s.tos))

/-- Opcode 7, `N=T` (R187). -/
def execAluEq (f : AluFields) (s : State) : Host.Outcome State Fault Refusal :=
  .next (s.aluSteps f (eqMask s.nos s.tos))

/-- Opcode 8, `N<T` signed (R188). -/
def execAluLt (f : AluFields) (s : State) : Host.Outcome State Fault Refusal :=
  .next (s.aluSteps f (ltMask s.nos s.tos))

/-- Opcode 9, `N>>T`: a logical shift by the whole of `T` (R189). -/
def execAluShr (f : AluFields) (s : State) : Host.Outcome State Fault Refusal :=
  .next (s.aluSteps f (s.nos >>> s.tos.toNat))

/-- Opcode 10, `T-1` (R190). -/
def execAluDec (f : AluFields) (s : State) : Host.Outcome State Fault Refusal :=
  .next (s.aluSteps f (s.tos - 1))

/-- Opcode 11, `R`, at the `rp` before step a (R191). -/
def execAluR (f : AluFields) (s : State) : Host.Outcome State Fault Refusal :=
  .next (s.aluSteps f s.rtop)

/-- Opcode 12, `[T]` (R192). -/
def execAluLoad (f : AluFields) (s : State) : Host.Outcome State Fault Refusal :=
  .next (s.aluSteps f s.atTos)

/-- Opcode 13, `N<<T`: a shift by the whole of `T` (R193). -/
def execAluShl (f : AluFields) (s : State) : Host.Outcome State Fault Refusal :=
  .next (s.aluSteps f (s.nos <<< s.tos.toNat))

/-- Opcode 14, `depth`, of the `sp` before step a (R194). -/
def execAluDepth (f : AluFields) (s : State) : Host.Outcome State Fault Refusal :=
  .next (s.aluSteps f s.depth)

/-- Opcode 15, `Nu<T` unsigned (R195). -/
def execAluULt (f : AluFields) (s : State) : Host.Outcome State Fault Refusal :=
  .next (s.aluSteps f (ultMask s.nos s.tos))

/-- Opcode 16, `rdepth`, of the `rp` before step a (R196). -/
def execAluRDepth (f : AluFields) (s : State) : Host.Outcome State Fault Refusal :=
  .next (s.aluSteps f s.rdepth)

/-- Opcode 17, `T0=` (R197). -/
def execAluZeroEq (f : AluFields) (s : State) : Host.Outcome State Fault Refusal :=
  .next (s.aluSteps f (zeroMask s.tos))

end Sys2Proof.Machine
end

