-- ==== Sys2Proof/Machine/Control.lean ====
section
/-! DEFINITION. The meanings of the literal, the call and the two branches (40_dispatch.md). -/

namespace Sys2Proof.Machine

/-- `lit n` (R143): push the old top, then load the immediate. -/
def execLit (n : BitVec 15) (s : State) : Host.Outcome State Fault Refusal :=
  .next (((s.pushData s.tos).setTos (litValue n)).advance)

/-- `call a` (R150): push the byte address of the next word, then go to the word index. -/
def execCall (a : BitVec 13) (s : State) : Host.Outcome State Fault Refusal :=
  .next ((s.pushReturn (w2b (s.pc + 1))).setPc (targetOf a))

/-- `0branch a` (R152): test the old top, and pop on both paths. -/
def execZBranch (a : BitVec 13) (s : State) : Host.Outcome State Fault Refusal :=
  .next ((if s.tos = 0 then s.setPc (targetOf a) else s.advance).popData)

/-- `branch a` (R154). -/
def execBranch (a : BitVec 13) (s : State) : Host.Outcome State Fault Refusal :=
  .next (s.setPc (targetOf a))

end Sys2Proof.Machine
end

