-- ==== Sys2Proof/Machine/Reserved.lean ====
section
/-! DEFINITION. ALU opcodes 22 to 31, which are reserved (R110, R200): the spec's model raises its fault
on the word, before any step of the ALU sequence, and changes no state (log entry 7). -/

namespace Sys2Proof.Machine

/-- Reserved opcode 22 (R200). -/
def execReserved22 (_f : AluFields) (s : State) : Host.Outcome State Fault Refusal :=
  raiseReserved s

/-- Reserved opcode 23 (R200). -/
def execReserved23 (_f : AluFields) (s : State) : Host.Outcome State Fault Refusal :=
  raiseReserved s

/-- Reserved opcode 24 (R200). -/
def execReserved24 (_f : AluFields) (s : State) : Host.Outcome State Fault Refusal :=
  raiseReserved s

/-- Reserved opcode 25 (R200). -/
def execReserved25 (_f : AluFields) (s : State) : Host.Outcome State Fault Refusal :=
  raiseReserved s

/-- Reserved opcode 26 (R200). -/
def execReserved26 (_f : AluFields) (s : State) : Host.Outcome State Fault Refusal :=
  raiseReserved s

/-- Reserved opcode 27 (R200). -/
def execReserved27 (_f : AluFields) (s : State) : Host.Outcome State Fault Refusal :=
  raiseReserved s

/-- Reserved opcode 28 (R200). -/
def execReserved28 (_f : AluFields) (s : State) : Host.Outcome State Fault Refusal :=
  raiseReserved s

/-- Reserved opcode 29 (R200). -/
def execReserved29 (_f : AluFields) (s : State) : Host.Outcome State Fault Refusal :=
  raiseReserved s

/-- Reserved opcode 30 (R200). -/
def execReserved30 (_f : AluFields) (s : State) : Host.Outcome State Fault Refusal :=
  raiseReserved s

/-- Reserved opcode 31 (R200). -/
def execReserved31 (_f : AluFields) (s : State) : Host.Outcome State Fault Refusal :=
  raiseReserved s

end Sys2Proof.Machine
end

