-- ==== Sys2Proof/Machine/Image.lean ====
section
/-! DEFINITION. The image loader and serializer (R80 to R86). -/

namespace Sys2Proof.Machine

/-- `n` cells from cell `k` on, each as two bytes in the file's order (R80, R84). -/
def serializeFrom (m : Memory) (n k : Nat) : List Byte :=
  match n with
  | 0 => []
  | n + 1 => fileBytes (m.readCell k) ++ serializeFrom m n (k + 1)

/-- The bytes that `Save(n)` writes: the first `n` cells in order (R84). -/
def serialize (n : Nat) (m : Memory) : List Byte := serializeFrom m n 0

/-- `n` words of a block file put into the image from cell `k` on, or nothing on a short read (R81, R82). -/
def loadCells (n k : Nat) (file : List Byte) (m : Memory) : Option Memory :=
  match n, file with
  | 0, _ => some m
  | n + 1, first :: second :: rest => loadCells n (k + 1) rest (m.writeCell k (fileWord first second))
  | _ + 1, _ => none

/-- `Load()` over an image: exactly `CORE` words, and no byte of a longer file beyond them (R81 to R83). -/
def loadImage (file : List Byte) (m : Memory) : Option Memory := loadCells Config.params.loadWords 0 file m

/-- What the sink of a `Save(n)` holds after it (R84, R85): the first `n` cells if the draw says that the
save succeeds, and otherwise a free value (log entry 5). DESIGN CHOICE: a save that succeeds replaces the
whole sink, so that a file longer than its `2n` bytes keeps no tail; the spec says only which bytes the sink
receives (log entry 5). -/
def State.sinkAfterSave (s : State) (n : Nat) : Option (List Byte) :=
  if Config.saveSucceeds s.saves then some (serialize n s.mem) else Config.failedSaveFile s.saves

/-- What a save leaves in the instance besides its sink: the draw is used up, and a failure is reported on
the diagnostic channel (R85; log entry 5). A program can see neither. -/
def State.reportSave (s : State) : State :=
  (s.setDiagnostics (if Config.saveSucceeds s.saves then s.diagnostics else s.diagnostics + 1)).setSaves
    (s.saves + 1)

/-- `Save(n)` on `BLOCK_PATH` (R84, R85). -/
def State.save (s : State) (n : Nat) : State := (s.setBlockFile (s.sinkAfterSave n)).reportSave

end Sys2Proof.Machine
end

