-- ==== Sys2Proof/Machine/SystemIo.lean ====
section
/-! DEFINITION. The meanings of ALU opcodes 18 to 21: persistence, output, input and halt
(42_system_io.md). -/

namespace Sys2Proof.Machine

/-- Opcode 18, `save` (R230): the whole image as it stands before steps a to f, then those steps. -/
def execAluSave (f : AluFields) (s : State) : Host.Outcome State Fault Refusal :=
  .next ((s.save Config.params.saveWords).aluSteps f s.tos)

/-- Opcode 19, `tx` (R231): the low byte of the old top is sent, and the new top is `N`. -/
def execAluTx (f : AluFields) (s : State) : Host.Outcome State Fault Refusal :=
  .next ((s.outWrite (lowByte s.tos)).aluSteps f s.nos)

/-- Opcode 20, `rx` (R232, R240): a byte becomes the new top; at the end of input the run stops cleanly
and steps a to f do not run; with nothing to read yet the machine waits. -/
def execAluRx (f : AluFields) (s : State) : Host.Outcome State Fault Refusal :=
  match s.input.answer with
  | .byte b => .next (s.consumeByte.aluSteps f (byteValue b))
  | .eof => .next s.cleanStop
  | .pending => .next s.wait

/-- Opcode 21, `bye` (R233): the run ends with the old top, and steps a to f do not run, whatever the
fields ask for. -/
def execAluBye (_f : AluFields) (s : State) : Host.Outcome State Fault Refusal :=
  .next (s.halt s.tos)

end Sys2Proof.Machine
end

