-- ==== Sys2Proof/Machine/Dispatch.lean ====
section
/-! DEFINITION. One arm per instruction, each a direct call of its meaning (R141, R177). -/

namespace Sys2Proof.Machine

def exec (i : Instr) (s : State) : Host.Outcome State Fault Refusal :=
  match i with
  | .lit n => Sys2Proof.Machine.execLit n s
  | .aluT f => Sys2Proof.Machine.execAluT f s
  | .aluN f => Sys2Proof.Machine.execAluN f s
  | .aluAdd f => Sys2Proof.Machine.execAluAdd f s
  | .aluAnd f => Sys2Proof.Machine.execAluAnd f s
  | .aluOr f => Sys2Proof.Machine.execAluOr f s
  | .aluXor f => Sys2Proof.Machine.execAluXor f s
  | .aluNot f => Sys2Proof.Machine.execAluNot f s
  | .aluEq f => Sys2Proof.Machine.execAluEq f s
  | .aluLt f => Sys2Proof.Machine.execAluLt f s
  | .aluShr f => Sys2Proof.Machine.execAluShr f s
  | .aluDec f => Sys2Proof.Machine.execAluDec f s
  | .aluR f => Sys2Proof.Machine.execAluR f s
  | .aluLoad f => Sys2Proof.Machine.execAluLoad f s
  | .aluShl f => Sys2Proof.Machine.execAluShl f s
  | .aluDepth f => Sys2Proof.Machine.execAluDepth f s
  | .aluULt f => Sys2Proof.Machine.execAluULt f s
  | .aluRDepth f => Sys2Proof.Machine.execAluRDepth f s
  | .aluZeroEq f => Sys2Proof.Machine.execAluZeroEq f s
  | .aluSave f => Sys2Proof.Machine.execAluSave f s
  | .aluTx f => Sys2Proof.Machine.execAluTx f s
  | .aluRx f => Sys2Proof.Machine.execAluRx f s
  | .aluBye f => Sys2Proof.Machine.execAluBye f s
  | .reserved22 f => Sys2Proof.Machine.execReserved22 f s
  | .reserved23 f => Sys2Proof.Machine.execReserved23 f s
  | .reserved24 f => Sys2Proof.Machine.execReserved24 f s
  | .reserved25 f => Sys2Proof.Machine.execReserved25 f s
  | .reserved26 f => Sys2Proof.Machine.execReserved26 f s
  | .reserved27 f => Sys2Proof.Machine.execReserved27 f s
  | .reserved28 f => Sys2Proof.Machine.execReserved28 f s
  | .reserved29 f => Sys2Proof.Machine.execReserved29 f s
  | .reserved30 f => Sys2Proof.Machine.execReserved30 f s
  | .reserved31 f => Sys2Proof.Machine.execReserved31 f s
  | .call a => Sys2Proof.Machine.execCall a s
  | .zbranch a => Sys2Proof.Machine.execZBranch a s
  | .branch a => Sys2Proof.Machine.execBranch a s

end Sys2Proof.Machine
end

