-- ==== Sys2Proof/Machine/Loop.lean ====
section
/-! DEFINITION. One iteration of the dispatch loop, for every value of the parameter ALU_LAYOUT (R8, R140,
R141). -/

namespace Sys2Proof.Machine

/-- One iteration under a layout of the ALU word (R8, R141): fetch, decode, execute. An instance with no
run in progress has no step (R268, R280); a waiting one tries its instruction again (R276; log entry 3). -/
def stepWith (L : AluLayout) (s : State) : Host.Outcome State Fault Refusal :=
  if s.canStep then exec (decodeWith L s.fetch) s.resume else .fault .notRunning

end Sys2Proof.Machine
end

