-- ==== Sys2Proof/Machine/Step.lean ====
section
/-! DEFINITION. One iteration of the dispatch loop (R140, R141), and the placing of an instruction where
the next step fetches it. -/

namespace Sys2Proof.Machine

/-- One iteration (R141), with the default of ALU_LAYOUT (R8, R104; log entry 1). -/
def step (s : State) : Host.Outcome State Fault Refusal := stepWith Config.aluLayout s

/-- The state with an instruction word in the cell that the next step fetches, and the run in progress.
It stands for the host's load of a program before the run (R303; log entry 11). -/
def State.withFetchWord (s : State) (nbits w : Nat) : State :=
  (s.writeCell s.pc (BitVec.ofNat 16 (w % 2 ^ nbits))).resume

end Sys2Proof.Machine
end

