-- ==== Sys2Proof/Assembler.lean ====
section
/-! DEFINITION. The assembler's expansion of a line into instructions (R113 to R115). Reading the text of
a line (decimal or hexadecimal digits, labels, comments) is done before: the spec calls the syntax
notation over the binary words (D18). -/

namespace Sys2Proof

/-- The expansion of a pseudo-instruction, row by row as the table of R114 has it. -/
def Pseudo.expand : Pseudo → List Instr
  | .dup => [.aluT { t2n := true, dd := .plusOne }]
  | .drop => [.aluN { dd := .minusOne }]
  | .nip => [.aluT { dd := .minusOne }]
  | .swap => [.aluN { t2n := true }]
  | .over => [.aluN { t2n := true, dd := .plusOne }]
  | .plus => [.aluAdd { dd := .minusOne }]
  | .and => [.aluAnd { dd := .minusOne }]
  | .or => [.aluOr { dd := .minusOne }]
  | .xor => [.aluXor { dd := .minusOne }]
  | .invert => [.aluNot {}]
  | .equal => [.aluEq { dd := .minusOne }]
  | .less => [.aluLt { dd := .minusOne }]
  | .rshift => [.aluShr { dd := .minusOne }]
  | .oneMinus => [.aluDec {}]
  | .rFetch => [.aluR { t2n := true, dd := .plusOne }]
  | .rFrom => [.aluR { t2n := true, dd := .plusOne, rd := .minusOne }]
  | .toR => [.aluN { t2r := true, dd := .minusOne, rd := .plusOne }]
  | .rdrop => [.aluT { rd := .minusOne }]
  | .fetch => [.aluLoad {}]
  | .store => [.aluN { n2a := true, dd := .minusOne }, .aluN { dd := .minusOne }]
  | .lshift => [.aluShl { dd := .minusOne }]
  | .depth => [.aluDepth { t2n := true, dd := .plusOne }]
  | .uLess => [.aluULt { dd := .minusOne }]
  | .rdepth => [.aluRDepth { t2n := true, dd := .plusOne }]
  | .zeroEqual => [.aluZeroEq {}]
  | .save => [.aluSave {}]
  | .emit => [.aluTx { dd := .minusOne }]
  | .key => [.aluRx { t2n := true, dd := .plusOne }]
  | .bye => [.aluBye {}]
  | .exit => [.aluT { r2p := true }]

/-- The instructions a line stands for, or nothing when the line is ill formed. A literal of 32768 or
more is the literal of its complement and then `invert` (R115). -/
def AsmLine.expand (l : AsmLine) : Option (List Instr) :=
  if l.wellFormed then
    match l with
    | .lit n =>
      if n < 32768 then some [.lit (BitVec.ofNat 15 n)]
      else some [.lit (BitVec.ofNat 15 (65535 - n)), .aluNot {}]
    | .call a => some [.call (BitVec.ofNat 13 a)]
    | .zbranch a => some [.zbranch (BitVec.ofNat 13 a)]
    | .branch a => some [.branch (BitVec.ofNat 13 a)]
    | .alu op f => some [aluInstr op f]
    | .pseudo p => some p.expand
  else none

/-- The words a line assembles to, under a layout of the ALU word (R8, R113). -/
def AsmLine.assembleWith (L : AluLayout) (l : AsmLine) : Option (List Word) :=
  l.expand.map (·.map (encodeWith L))

/-- The words a line assembles to (R113). -/
def AsmLine.assemble (l : AsmLine) : Option (List Word) := l.assembleWith Config.aluLayout

end Sys2Proof
end

