-- ==== Sys2Proof/Machine/HostInterface.lean ====
section
/-! DEFINITION. What the host may do to an instance, before, between and during runs (R280 to R286). No
step does any of it. -/

namespace Sys2Proof.Machine

/-- The instance as the host creates it: a zero-filled image and no run entered (R280, R300). The registers
mean nothing before a run entry sets them (R301); here they hold the same values (log entry 13). -/
def State.create : State := State.reset.setStatus .idle

/-- Run entry (R301, R283): the registers take their reset values, the streams are the host's, and the
memory image stays as it is. While a run is in progress there is no such operation (R285). -/
def State.enterRun (s : State) (input : InStream) (output : List Byte) : Option State :=
  if s.canStep then none
  else some
    { s with
      pc := 0
      tos := 0
      sp := Config.params.sp0
      rp := Config.params.rp0
      input := input
      output := output
      status := .running }

/-- The load of a block file (R81, R282): `none` for a file that could not be opened, and no state after
an open that failed or a file that is too short (R82; log entry 9). It comes before the first run, if at
all: a run keeps the image from its host (R285), and so do the runs of one instance between them (R42, R48,
R283; log entry 13). DESIGN CHOICE: the instance stays before its first run, so a second load may follow,
and it replaces the whole image as the first did; R42 has the image populated once and says nothing of a
second load (log entry 13). -/
def State.load (s : State) (file : Option (List Byte)) : Option State :=
  if s.status = .idle then file.bind (fun bytes => (loadImage bytes s.mem).map s.setMem) else none

/-- The host supplies bytes on the input stream, which it can while the stream is open (R262, R276). -/
def State.supplyInput (s : State) (bytes : List Byte) : State :=
  if s.input.closed then s
  else s.setInput { s.input with bytes := s.input.bytes ++ bytes }

/-- The host closes the input stream (R262, R276). -/
def State.closeInput (s : State) : State := s.setInput { s.input with closed := true }

/-- A `Save(n)` of the host's, to a path of its choice: the instance after it, and what the sink then holds.
It draws its outcome and reports a failure as opcode 18's save does (R84, R85). The host may save a prefix
of 1 to `CORE` cells, and not while a run is in progress (R285, R286). DESIGN CHOICE: it may save before the
first run too; R286 says "between runs" and leaves that case open (log entry 13). A path that is not
`BLOCK_PATH` leaves the file there as it was (log entry 12). -/
def State.hostSave (s : State) (path : String) (n : Nat) : Option (State × Option (List Byte)) :=
  if s.canStep then none
  else if 1 ≤ n ∧ n ≤ Config.params.core then
    some (if path = Config.blockPath then s.save n else s.reportSave, s.sinkAfterSave n)
  else none

/-- The instance as an iteration leaves it to the host: the next state, or after the model's fault the
same state with the run ended (R261, R268, R281; log entry 13). Nothing where no iteration could run. -/
def State.afterStep (s : State) : Option State :=
  match step s with
  | .next t => some t
  | .fault (.reservedAluOp word) => some (s.setStatus (.faulted word))
  | .fault .notRunning => none
  | .refused _ => none

/-- The number by which a run's result reaches the host layer: the halt result itself, or the open
`CLEAN_STOP_CODE`; none where no run has ended with a
result (R266, R267, R281; log entry 6). -/
def RunStatus.hostNumber : RunStatus → Option Int
  | .idle => none
  | .running => none
  | .waiting => none
  | .halted v => some v.toNat
  | .cleanStop => some Config.cleanStopCode
  | .faulted _ => none

end Sys2Proof.Machine
end

