-- ==== Sys2Proof/Safety.lean ====
section
/-! DEFINITION. The terms the statements are written in: what a run may rely on (the invariant of the
state), what an instruction changes and what it leaves alone. -/

namespace Sys2Proof.Machine

/-- What every step keeps: the image is in canonical form, the input position does not pass the bytes
supplied, and a machine that waits stands at an input read that cannot be answered yet. -/
structure State.Inv (s : State) : Prop where
  mem_wf : s.mem.wf = true
  pos_le : s.input.pos ≤ s.input.bytes.length
  waits_for_input : s.status = .waiting →
    (∃ f, decode s.fetch = .aluRx f) ∧ s.input.answer = .pending

/-- The byte of a cell's value at a byte address: bits 7:0 at an even address, bits 15:8 at an odd one. -/
def byteOf (v : Word) (a : Nat) : Byte := if a % 2 = 0 then lowByte v else highByte v

/-- Everything outside the registers and the memory image is as it was. -/
structure SameEnvironment (s t : State) : Prop where
  input : t.input = s.input
  output : t.output = s.output
  blockFile : t.blockFile = s.blockFile
  saves : t.saves = s.saves
  diagnostics : t.diagnostics = s.diagnostics
  status : t.status = s.status

/-- The registers and the memory image agree. -/
structure SameCore (s t : State) : Prop where
  pc : t.pc = s.pc
  tos : t.tos = s.tos
  sp : t.sp = s.sp
  rp : t.rp = s.rp
  mem : t.mem = s.mem

/-- What the common ALU sequence does to the registers and to every byte of memory, given the new top
(R171 to R176). The stores of steps b, c and d go to the cells at the new `rp`, at the new `sp` and at
the byte address in the old top; of two that meet, the later one wins (R177, R178). -/
structure AluEffect (f : AluFields) (newTop : Word) (s t : State) : Prop where
  tos : t.tos = newTop
  sp : t.sp = s.sp + deltaAddend f.dd
  rp : t.rp = s.rp + deltaAddend f.rd
  pc : t.pc = if f.r2p then b2w (t.readCell (s.rp + deltaAddend f.rd)) else s.pc + 1
  mem : ∀ a, t.mem.readByte a =
    if f.n2a = true ∧ a / 2 = idx (b2w s.tos) then byteOf s.nos a
    else if f.t2n = true ∧ a / 2 = idx (s.sp + deltaAddend f.dd) then byteOf s.tos a
    else if f.t2r = true ∧ a / 2 = idx (s.rp + deltaAddend f.rd) then byteOf s.tos a
    else s.mem.readByte a

/-- The ALU opcodes that run steps a to f to their end: 0 to 19 always, and 20 where an input byte is left
(R177, R179, R232). -/
abbrev AluRuns (op : Nat) (s : State) : Prop :=
  op < 20 ∨ (op = 20 ∧ s.input.pos < s.input.bytes.length)

/-- The column `_tos` of the opcode map (R109): the new top of each ALU opcode, from the state before step
a (R170). None where there is none: at the end of input, in a halt and for the reserved opcodes. -/
def newTop (op : Nat) (s : State) : Option Word :=
  match op with
  | 0 => some s.tos
  | 1 => some s.nos
  | 2 => some (s.tos + s.nos)
  | 3 => some (s.tos &&& s.nos)
  | 4 => some (s.tos ||| s.nos)
  | 5 => some (s.tos ^^^ s.nos)
  | 6 => some (~~~s.tos)
  | 7 => some (mask (s.tos == s.nos))
  | 8 => some (mask (decide (s16 s.nos < s16 s.tos)))
  | 9 => some (s.nos >>> s.tos.toNat)
  | 10 => some (s.tos - 1)
  | 11 => some (s.readCell s.rp)
  | 12 => some (s.readCell (b2w s.tos))
  | 13 => some (s.nos <<< s.tos.toNat)
  | 14 => some (s.sp - Config.params.sp0)
  | 15 => some (mask (decide (s.nos.toNat < s.tos.toNat)))
  | 16 => some (s.rp - Config.params.rp0)
  | 17 => some (mask (s.tos == 0))
  | 18 => some s.tos
  | 19 => some s.nos
  | 20 => (s.input.bytes[s.input.pos]?).map (·.setWidth 16)
  | _ => none

/-- An ALU instruction whose words begin with the given byte completes with the given new top, and
leaves the streams, the block file and the status alone. -/
def AluCompletes (i : Instr) (base : Byte) (f : AluFields) (newTop : Word) (s : State) : Prop :=
  highByte (encode i) = base ∧ i.aluForm? = some ((base.toNat % 32), f) ∧
    ∃ t, exec i s = .next t ∧ AluEffect f newTop s t ∧ SameEnvironment s t

/-- The cells an ALU word's flags store to (R172 to R174). -/
def aluStoredCells (f : AluFields) (s : State) : List Nat :=
  (if f.t2r then [idx (s.rp + deltaAddend f.rd)] else []) ++
  (if f.t2n then [idx (s.sp + deltaAddend f.dd)] else []) ++
  (if f.n2a then [idx (b2w s.tos)] else [])

/-- The cells an instruction may store to: the write rows of R66. A halt stores nothing (R233). -/
def storedCells (i : Instr) (s : State) : List Nat :=
  match i with
  | .lit _ => [idx (s.sp + 1)]
  | .call _ => [idx (s.rp + 1)]
  | .zbranch _ => []
  | .branch _ => []
  | .aluBye _ => []
  | i =>
    match i.aluForm? with
    | some (_, f) => aluStoredCells f s
    | none => []

end Sys2Proof.Machine
end

