-- ==== Sys2Proof/Certificates/Slice0/Obligations.lean ====
section
/-! DEFINITION. The statements for the provers. -/

open Sys2Proof Sys2Proof.Machine

/-! ### Encoding -/

/-- The decoder and the encoder undo one another: no bit of an instruction is dropped, and no two words
are one instruction (R101 to R105, R111). -/
def Obligations.DecodeAndEncodeAreInverse : Prop :=
  (∀ i : Instr, decode (encode i) = i) ∧ ∀ w : Word, encode (decode w) = w

/-- Whatever layout the parameter `ALU_LAYOUT` takes, as long as its fields share no bit and lie in bits
12:0, every instruction is read back from its word (R8, R104, D1). -/
def Obligations.EveryLayoutReadsBackItsWords : Prop :=
  ∀ L : AluLayout, L.wellFormed = true → ∀ i : Instr, decodeWith L (encodeWith L i) = i

/-- The five classes by their top bits, in the priority order of R101. -/
def Obligations.ClassesByTopBits : Prop :=
  ∀ w : Word,
    if w.getLsbD 15 = true then ∃ n, decode w = .lit n
    else if w &&& 0xE000#16 = 0x6000#16 then ∃ op f, (decode w).aluForm? = some (op, f)
    else if w.getLsbD 14 = true then ∃ a, decode w = .call a
    else if w.getLsbD 13 = true then ∃ a, decode w = .zbranch a
    else ∃ a, decode w = .branch a

/-- The formats of literal, call, `0branch` and `branch`, each word written as a number (R102, R103). -/
def Obligations.LiteralAndAddressFormats : Prop :=
  (∀ n < 32768, decode (BitVec.ofNat 16 (0x8000 + n)) = .lit (BitVec.ofNat 15 n)) ∧
  (∀ a < 8192, decode (BitVec.ofNat 16 (0x4000 + a)) = .call (BitVec.ofNat 13 a)) ∧
  (∀ a < 8192, decode (BitVec.ofNat 16 (0x2000 + a)) = .zbranch (BitVec.ofNat 13 a)) ∧
  (∀ a < 8192, decode (BitVec.ofNat 16 a) = .branch (BitVec.ofNat 13 a))

/-- The ALU word written as a number from its fields. Their places are the spec's decision D1 (R104),
which the model takes as the default of `ALU_LAYOUT` (log entry 1). A delta field's number is its place in
the table of R105. -/
def Obligations.AluWordsByTheirFields : Prop :=
  let number : Delta → Nat := fun d => match d with
    | .zero => 0 | .plusOne => 1 | .minusTwo => 2 | .minusOne => 3
  ∀ op < 32, ∀ f : AluFields,
    (decode (BitVec.ofNat 16 (0x6000 + 256 * op + 128 * f.t2n.toNat + 64 * f.t2r.toNat +
      32 * f.n2a.toNat + 16 * f.r2p.toNat + 4 * number f.rd + number f.dd))).aluForm? = some (op, f)

/-- Words of each class written out bit by bit from the spec's encodings, and what they decode to. -/
def Obligations.SampleWordsDecode : Prop :=
  decode 0b1000000000000101#16 = .lit 5 ∧
  decode 0b0100000000001000#16 = .call 8 ∧
  decode 0b0010000000000111#16 = .zbranch 7 ∧
  decode 0b0000000000000001#16 = .branch 1 ∧
  decode 0b0110000101000111#16 = .aluN { t2r := true, rd := .plusOne, dd := .minusOne } ∧
  decode 0b0110101110001101#16 = .aluR { t2n := true, rd := .minusOne, dd := .plusOne } ∧
  decode 0b0110000100100011#16 = .aluN { n2a := true, dd := .minusOne } ∧
  decode 0b0110000000010000#16 = .aluT { r2p := true } ∧
  decode 0b0111010010000001#16 = .aluRx { t2n := true, dd := .plusOne } ∧
  decode 0b0111011000000010#16 = .reserved22 { dd := .minusTwo }

/-- The word or words of every pseudo-instruction (R114). -/
def Obligations.PseudoInstructionWords : Prop :=
  ([(.dup, [0x6081]), (.drop, [0x6103]), (.nip, [0x6003]), (.swap, [0x6180]), (.over, [0x6181]),
    (.plus, [0x6203]), (.and, [0x6303]), (.or, [0x6403]), (.xor, [0x6503]), (.invert, [0x6600]),
    (.equal, [0x6703]), (.less, [0x6803]), (.rshift, [0x6903]), (.oneMinus, [0x6A00]),
    (.rFetch, [0x6B81]), (.rFrom, [0x6B8D]), (.toR, [0x6147]), (.rdrop, [0x600C]), (.fetch, [0x6C00]),
    (.store, [0x6123, 0x6103]), (.lshift, [0x6D03]), (.depth, [0x6E81]), (.uLess, [0x6F03]),
    (.rdepth, [0x7081]), (.zeroEqual, [0x7100]), (.save, [0x7200]), (.emit, [0x7303]),
    (.key, [0x7481]), (.bye, [0x7500]), (.exit, [0x6010])] : List (Pseudo × List Word)).all
    (fun row => (AsmLine.pseudo row.1).assemble == some row.2) = true

/-- The two-word literal: the first word pushes the complement and the second turns it into the constant
(R115, a pseudo-instruction by the spec's decision D18, log entry 12; its second word is of the layout of log
entry 1, decision D1). -/
def Obligations.WideLiteralTakesTwoWords : Prop :=
  ∀ n, 32768 ≤ n → n < 65536 →
    (AsmLine.lit n).assemble = some [BitVec.ofNat 16 (0x8000 + (65535 - n)), 0x6600#16] ∧
    ∀ s : State, ∃ t u,
      exec (decode (BitVec.ofNat 16 (0x8000 + (65535 - n)))) s = .next t ∧
      exec (decode 0x6600#16) t = .next u ∧
      t.tos = ~~~(BitVec.ofNat 16 n) ∧ u.tos = BitVec.ofNat 16 n ∧ u.sp = s.sp + 1 ∧ u.pc = s.pc + 2 ∧
      u.readCell u.sp = s.tos

/-! ### Addresses and deltas -/

/-- What each number of a delta field selects, as an addend (R105), and step a: either pointer moves by
its own field's addend modulo 2^16, whatever the other is (R171), in every ALU word that runs to its end.
That opcode 19 does not pop and opcode 20 does not push of itself are the spec's decisions D7 and D8 (log
entry 8). -/
def Obligations.DeltaFieldsMoveThePointers : Prop :=
  deltaAddend (Delta.ofBits 0) = 0x0000 ∧ deltaAddend (Delta.ofBits 1) = 0x0001 ∧
  deltaAddend (Delta.ofBits 2) = 0xFFFE ∧ deltaAddend (Delta.ofBits 3) = 0xFFFF ∧
  ∀ (i : Instr) (op : Nat) (f : AluFields) (s : State), i.aluForm? = some (op, f) →
    AluRuns op s →
    ∃ t, exec i s = .next t ∧
      t.sp.toNat = (s.sp.toNat + (deltaAddend f.dd).toNat) % 65536 ∧
      t.rp.toNat = (s.rp.toNat + (deltaAddend f.rd).toNat) % 65536

/-- The two conversions between byte addresses and word indices, and their round trip (R60, R61, R68; that
the first is a logical shift is the spec's decision D5, log entry 8). -/
def Obligations.AddressConversions : Prop :=
  (∀ a : Word, (b2w a).toNat = a.toNat / 2 ∧ idx (b2w a) = a.toNat / 2) ∧
  (∀ w : Word, (w2b w).toNat = (w.toNat * 2) % 65536) ∧
  (∀ w : Word, w.toNat < 32768 → b2w (w2b w) = w) ∧
  (∀ w : Word, 32768 ≤ w.toNat → b2w (w2b w) = w - 32768 ∧ idx (b2w (w2b w)) = idx w) ∧
  (∀ w : Word, idx w = (w.extractLsb' 0 15).toNat)

/-! ### The dispatch loop -/

/-- The machine after reset (R48, R300); the registers' values are the spec's decision D2 (log entry 8). -/
def Obligations.ResetState : Prop :=
  State.reset.pc = 0 ∧ State.reset.tos = 0 ∧ State.reset.sp = 8192 ∧ State.reset.rp = 8256 ∧
    State.reset.status = .running ∧ ∀ a, State.reset.mem.readByte a = 0

/-- Run entry sets the registers and leaves the image alone, on an instance with no run in progress (R301,
R285; the spec's decisions D2 and D3, log entry 8). -/
def Obligations.RunEntrySetsRegisters : Prop :=
  ∀ (s : State) (i : InStream) (o : List Byte), s.canStep = false → ∃ t, s.enterRun i o = some t ∧
    t.pc = 0 ∧ t.tos = 0 ∧ t.sp = 8192 ∧ t.rp = 8256 ∧ t.mem = s.mem ∧ t.input = i ∧ t.output = o ∧
    t.canStep = true

/-- At run entry both depth queries give 0, the first literal pushes 0 to cell 8193, and the first call
pushes its return address to cell 8257 (R302, from the spec's decision D2, log entry 8). -/
def Obligations.FreshStacks : Prop :=
  ∀ (s e : State) (i : InStream) (o : List Byte), s.enterRun i o = some e →
    e.nos = s.readCell 8192 ∧
    (∀ f, ∃ t, exec (.aluDepth f) e = .next t ∧ t.tos = 0) ∧
    (∀ f, ∃ t, exec (.aluRDepth f) e = .next t ∧ t.tos = 0) ∧
    (∀ n, ∃ t, exec (.lit n) e = .next t ∧ t.sp = 8193 ∧ t.readCell 8193 = 0) ∧
    (∀ a, ∃ t, exec (.call a) e = .next t ∧ t.rp = 8257 ∧ t.readCell 8257 = 2)

/-- While a run is in progress the host can enter no run and save nothing, and once a run has been entered
it can load nothing; what it does to the input stream changes that stream alone. With no run in progress it
can enter a run, and before the first one a load of a long enough file changes the image alone (R285, R262,
R286, R42). That a file longer than 65536 bytes loads is the spec's decision D14 (log entry 9). How an
instance says where it stands is the model's, and so is that a load leaves it before its first run, where a
second load may follow and replaces the image: R42 has the image populated once and says no more (log entry
13). -/
def Obligations.HostActsBetweenRunsAlone : Prop :=
  ∀ s : State,
    (s.canStep = true → (∀ i o, s.enterRun i o = none) ∧ (∀ path n, s.hostSave path n = none)) ∧
    (s.status ≠ .idle → ∀ file, s.load file = none) ∧
    (∀ bytes, s.supplyInput bytes = { s with input := (s.supplyInput bytes).input }) ∧
    s.closeInput = { s with input := s.closeInput.input } ∧
    (s.status = .idle → ∀ file : List Byte, 65536 ≤ file.length →
      ∃ m, loadImage file s.mem = some m ∧ s.load (some file) = some { s with mem := m }) ∧
    (s.canStep = false → ∀ i o, (s.enterRun i o).isSome = true)

/-- A save of the host's with no run in progress (R84, R85, R286; the spec's decisions D12 and D13): it asks
for 1 to 32768 cells; the sink holds their bytes if the draw says that the save succeeds, and a free value
if not; a failure adds one report; registers, image, streams and status stay, and the file at `BLOCK_PATH`
changes only if that is the path. It holds for every draw. That the sink is replaced whole, that another
path leaves the block file alone, and that the host may save before the first run are the model's (log
entries 5, 12 and 13). -/
def Obligations.HostSaveDrawsAndReports : Prop :=
  ∀ (s : State) (path : String) (n : Nat), s.canStep = false →
    (n = 0 ∨ 32768 < n → s.hostSave path n = none) ∧
    (1 ≤ n → n ≤ 32768 → ∃ t sink, s.hostSave path n = some (t, sink) ∧
      sink = (if Config.saveSucceeds s.saves = true then some (serialize n s.mem)
        else Config.failedSaveFile s.saves) ∧
      SameCore s t ∧ t.input = s.input ∧ t.output = s.output ∧ t.status = s.status ∧
      t.saves = s.saves + 1 ∧
      t.diagnostics = s.diagnostics + (if Config.saveSucceeds s.saves = true then 0 else 1) ∧
      t.blockFile = (if path = Config.blockPath then sink else s.blockFile))

/-- A step runs the instruction that the cell at `pc` decodes to, with the status set back to running if
the machine waited; it adds nothing else (R64, R141). So it does under every value of the parameter
ALU_LAYOUT (R8), and `step` is the step under its default (log entry 1; the waiting status is the model's,
log entry 3). -/
def Obligations.StepRunsTheDecodedInstruction : Prop :=
  (∀ (L : AluLayout) (s : State) (i : Instr), s.status = .running ∨ s.status = .waiting →
    decodeWith L (s.mem.readCell (s.pc.toNat % 32768)) = i →
    stepWith L s = exec i { s with status := .running }) ∧
  ∀ (s : State) (i : Instr), s.status = .running ∨ s.status = .waiting →
    decode (s.mem.readCell (s.pc.toNat % 32768)) = i →
    step s = exec i { s with status := .running }

/-- An instance whose run has ended, or that has entered none, has no step (R268, R280; the fault is the
model's, log entry 2). -/
def Obligations.EndedRunHasNoStep : Prop :=
  ∀ (L : AluLayout) (s : State), s.status ≠ .running → s.status ≠ .waiting →
    stepWith L s = .fault .notRunning ∧ step s = .fault .notRunning

/-- The terminal conditions: a run halts by `bye` alone, stops cleanly by `rx` at the end of input alone,
and faults by a reserved word alone; it waits by `rx` alone, and no step is refused (R140, R261, R268;
how a state records an outcome is the model's, log entries 2 and 3). -/
def Obligations.TerminalConditions : Prop :=
  ∀ s : State, s.canStep = true →
    (∀ t v, step s = .next t → t.status = .halted v →
      (∃ f, decode s.fetch = .aluBye f) ∧ v = s.tos) ∧
    (∀ t, step s = .next t → t.status = .cleanStop →
      (∃ f, decode s.fetch = .aluRx f) ∧ s.input.answer = .eof) ∧
    (∀ t, step s = .next t → t.status = .waiting →
      (∃ f, decode s.fetch = .aluRx f) ∧ s.input.answer = .pending) ∧
    (∀ r, step s = .fault r → r = .reservedAluOp s.fetch ∧ (decode s.fetch).wellFormed = false) ∧
    (∀ r, step s ≠ .refused r)

/-- Stops are precise: a step that ends the run changes nothing but the status (R232, R233, R264; the
status is the model's, log entry 2). -/
def Obligations.StopsArePrecise : Prop :=
  ∀ s t : State, step s = .next t → t.canStep = false → t = { s with status := t.status }

/-- A wait keeps all state. A byte supplied resumes the instruction with that byte, and closing the stream
ends the run cleanly (R240, R276; that a waiting step answers a state is the model's, log entry 3; the
resumed instruction's new top and the pointer it leaves alone are the spec's decision D8, log entry 8). -/
def Obligations.WaitKeepsStateAndResumes : Prop :=
  ∀ (s : State) (f : AluFields), s.canStep = true → decode s.fetch = .aluRx f →
    s.input.pos = s.input.bytes.length → s.input.closed = false →
    ∃ t, step s = .next t ∧ t = { s with status := .waiting } ∧ step t = .next t ∧
      (∀ b bs, ∃ u, step (t.supplyInput (b :: bs)) = .next u ∧ AluEffect f (b.setWidth 16) s u ∧
        u.input = { s.input with bytes := s.input.bytes ++ b :: bs, pos := s.input.pos + 1 } ∧
        u.output = s.output ∧ u.status = .running) ∧
      step t.closeInput = .next { t.closeInput with status := .cleanStop }

/-- On a zero-filled image the machine loops at cell 0 and never reads input, however many steps it
takes (R304, from the entry point that is the spec's decision D2, log entry 8). -/
def Obligations.ZeroImageLoopsForever : Prop :=
  ∀ s : State, s.mem = [] → s.pc = 0 → s.status = .running →
    ∀ k, Host.Core.run Sys2Proof.core k s = .next s

/-- A store to the cell the next fetch reads changes the next instruction, with no delay (R92, R311): a
memory store by any ALU word that runs to its end, and the push of a literal. That the memory store comes
after the others is the spec's decision D21 (log entry 8). -/
def Obligations.StoredWordRunsNext : Prop :=
  (∀ (i : Instr) (op : Nat) (f : AluFields) (s : State), i.aluForm? = some (op, f) → AluRuns op s →
    f.n2a = true → f.r2p = false → idx (b2w s.tos) = idx (s.pc + 1) → s.status = .running →
    ∃ t, exec i s = .next t ∧ step t = exec (decode s.nos) t) ∧
  (∀ (n : BitVec 15) (s : State), idx (s.sp + 1) = idx (s.pc + 1) → s.status = .running →
    ∃ t, exec (.lit n) s = .next t ∧ step t = exec (decode s.tos) t)

/-! ### Literal, call and branches -/

/-- `lit` (R143): result, completion and frame. -/
def Obligations.LiteralPushesOldTop : Prop :=
  ∀ (n : BitVec 15) (s : State), (encode (.lit n)).toNat = 0x8000 + n.toNat ∧
    ∃ t, exec (.lit n) s = .next t ∧
      t.sp = s.sp + 1 ∧ t.tos = n.setWidth 16 ∧ t.pc = s.pc + 1 ∧ t.rp = s.rp ∧
      (∀ a, t.mem.readByte a =
        if a / 2 = idx (s.sp + 1) then byteOf s.tos a else s.mem.readByte a) ∧
      SameEnvironment s t

/-- `call` (R150): result, completion and frame. -/
def Obligations.CallPushesReturnAddress : Prop :=
  ∀ (a : BitVec 13) (s : State), (encode (.call a)).toNat = 0x4000 + a.toNat ∧
    ∃ t, exec (.call a) s = .next t ∧
      t.rp = s.rp + 1 ∧ t.pc = a.setWidth 16 ∧ t.tos = s.tos ∧ t.sp = s.sp ∧
      (∀ b, t.mem.readByte b =
        if b / 2 = idx (s.rp + 1) then byteOf (BitVec.ofNat 16 ((s.pc + 1).toNat * 2)) b
        else s.mem.readByte b) ∧
      SameEnvironment s t

/-- `0branch` (R152): it tests the top before the pop and pops on both paths; nothing else changes. -/
def Obligations.ConditionalBranchPopsOnBothPaths : Prop :=
  ∀ (a : BitVec 13) (s : State), (encode (.zbranch a)).toNat = 0x2000 + a.toNat ∧
    exec (.zbranch a) s = .next
      { s with
        pc := if s.tos = 0 then a.setWidth 16 else s.pc + 1
        tos := s.mem.readCell (idx s.sp)
        sp := s.sp - 1 }

/-- `branch` (R154): nothing but `pc` changes. -/
def Obligations.BranchSetsPcAlone : Prop :=
  ∀ (a : BitVec 13) (s : State), (encode (.branch a)).toNat = a.toNat ∧
    exec (.branch a) s = .next { s with pc := a.setWidth 16 }

/-- After a call, a return with no return-stack delta and no store over the return address resumes at
the word after the call, or at the same cell one address space lower (R158, C3), in every ALU word that runs
to its end. That the return reads what the stores before it left is the spec's decision D21, and the pointers
of opcodes 19 and 20 are D7 and D8 (log entry 8). -/
def Obligations.CallAndReturnRoundTrip : Prop :=
  ∀ (a : BitVec 13) (s t : State), exec (.call a) s = .next t →
    ∀ (i : Instr) (op : Nat) (f : AluFields) (u : State), i.aluForm? = some (op, f) →
      AluRuns op u → f.r2p = true → f.rd = .zero → f.t2r = false →
      (f.t2n = true → idx (u.sp + deltaAddend f.dd) ≠ idx u.rp) →
      (f.n2a = true → idx (b2w u.tos) ≠ idx u.rp) →
      u.rp = t.rp → u.readCell u.rp = t.readCell t.rp →
      ∃ v, exec i u = .next v ∧
        v.pc = (if (s.pc + 1).toNat < 32768 then s.pc + 1 else s.pc + 1 - 32768) ∧
        idx v.pc = idx (s.pc + 1)

/-! ### ALU opcodes 0 to 17 -/

/-- Steps a to f, for every opcode that runs them to their end (0 to 19, and 20 where a byte is left) and
every combination of its fields: the instruction completes, `tos` is the opcode's new top in the opcode map
(R109, R175), and the other registers and every byte of memory are as R171 to R174 and R176 say. Which of
two stores that meet wins is the spec's decision D21, the pointers of opcodes 19 and 20 are D7 and D8, and
the new tops follow D6 and D17 (log entry 8). -/
def Obligations.AluCommonSequence : Prop :=
  ∀ (i : Instr) (op : Nat) (f : AluFields) (s : State), i.aluForm? = some (op, f) → AluRuns op s →
    ∃ t v, newTop op s = some v ∧ exec i s = .next t ∧ AluEffect f v s t ∧ t.status = s.status ∧
      (op ≠ 20 → t.input = s.input)

/-- Opcodes 0 and 1 (R180, R181). Where stores meet, the outcome is the spec's decision D21 (log entry 8);
the words' high byte is of the layout of log entry 1. -/
def Obligations.AluCopyOpcodes : Prop :=
  ∀ (f : AluFields) (s : State),
    AluCompletes (.aluT f) 0x60 f s.tos s ∧
    AluCompletes (.aluN f) 0x61 f (s.mem.readCell (idx s.sp)) s

/-- Opcodes 2 to 6 and 10 (R182 to R186, R190). Where stores meet, the outcome is the spec's decision D21
(log entry 8); the words' high byte is of the layout of log entry 1. -/
def Obligations.AluArithmeticAndLogicOpcodes : Prop :=
  ∀ (f : AluFields) (s : State),
    AluCompletes (.aluAdd f) 0x62 f (BitVec.ofNat 16 (s.tos.toNat + s.nos.toNat)) s ∧
    AluCompletes (.aluAnd f) 0x63 f (s.tos &&& s.nos) s ∧
    AluCompletes (.aluOr f) 0x64 f (s.tos ||| s.nos) s ∧
    AluCompletes (.aluXor f) 0x65 f (s.tos ^^^ s.nos) s ∧
    AluCompletes (.aluNot f) 0x66 f (BitVec.ofNat 16 (65535 - s.tos.toNat)) s ∧
    AluCompletes (.aluDec f) 0x6A f (BitVec.ofNat 16 (s.tos.toNat + 65535)) s

/-- Opcode 8 (R188). That the signed reading is two's complement is the spec's decision D17, and where
stores meet the outcome is D21 (log entry 8); the word's high byte is of the layout of log entry 1. -/
def Obligations.AluSignedComparisonOpcode : Prop :=
  let signed : Word → Int := fun v => if v.toNat < 32768 then v.toNat else (v.toNat : Int) - 65536
  ∀ (f : AluFields) (s : State),
    AluCompletes (.aluLt f) 0x68 f (if signed s.nos < signed s.tos then 0xFFFF else 0x0000) s

/-- Opcodes 7, 15 and 17 (R187, R195, R197). Where stores meet, the outcome is the spec's decision D21 (log
entry 8); the words' high byte is of the layout of log entry 1. -/
def Obligations.AluComparisonOpcodes : Prop :=
  ∀ (f : AluFields) (s : State),
    AluCompletes (.aluEq f) 0x67 f (if s.tos = s.nos then 0xFFFF else 0x0000) s ∧
    AluCompletes (.aluULt f) 0x6F f (if s.nos.toNat < s.tos.toNat then 0xFFFF else 0x0000) s ∧
    AluCompletes (.aluZeroEq f) 0x71 f (if s.tos = 0 then 0xFFFF else 0x0000) s

/-- Opcodes 9 and 13, by the whole 16-bit amount: 0 from 16 on, which is the spec's decision D6
(R189, R193; log entry 8). Where stores meet, the outcome is D21 (log entry 8); the words' high byte is of the
layout of log entry 1. -/
def Obligations.AluShiftOpcodes : Prop :=
  ∀ (f : AluFields) (s : State),
    AluCompletes (.aluShr f) 0x69 f
      (if s.tos.toNat < 16 then BitVec.ofNat 16 (s.nos.toNat / 2 ^ s.tos.toNat) else 0) s ∧
    AluCompletes (.aluShl f) 0x6D f
      (if s.tos.toNat < 16 then BitVec.ofNat 16 (s.nos.toNat * 2 ^ s.tos.toNat) else 0) s

/-- Opcode 11: the return-stack top at the `rp` before step a (R191, R170). Where stores meet, the outcome
is the spec's decision D21 (log entry 8); the words' high byte is of the layout of log entry 1. -/
def Obligations.AluReturnTopOpcode : Prop :=
  ∀ (f : AluFields) (s : State),
    AluCompletes (.aluR f) 0x6B f (s.mem.readCell (s.rp.toNat % 32768)) s

/-- Opcode 12: the cell at the byte address in the old top, whatever its low bit (R192). Where stores meet,
the outcome is the spec's decision D21 (log entry 8); the words' high byte is of the layout of log entry 1.
-/
def Obligations.AluMemoryLoadOpcode : Prop :=
  ∀ (f : AluFields) (s : State),
    AluCompletes (.aluLoad f) 0x6C f (s.mem.readCell (s.tos.toNat / 2)) s

/-- Opcodes 14 and 16, of the pointers before step a, modulo 2^16 (R194, R196). Where stores
meet, the outcome is the spec's decision D21 (log entry 8); the words' high byte is of the layout of log
entry 1. -/
def Obligations.AluDepthOpcodes : Prop :=
  ∀ (f : AluFields) (s : State),
    AluCompletes (.aluDepth f) 0x6E f (s.sp - 8192) s ∧
    AluCompletes (.aluRDepth f) 0x70 f (s.rp - 8256) s

/-- What follows from the fixed order when stores and the return meet in one cell: the later step wins
(R178, R312, R313; the sequential reading is the spec's decision D21, and the pointers of opcodes 19 and 20
are D7 and D8, log entry 8). -/
def Obligations.AluStoreOrder : Prop :=
  ∀ (i : Instr) (op : Nat) (f : AluFields) (s t : State), i.aluForm? = some (op, f) → AluRuns op s →
    exec i s = .next t →
    (f.n2a = true → t.readCell (b2w s.tos) = s.nos) ∧
    (f.t2n = true → (f.n2a = true → idx (b2w s.tos) ≠ idx t.sp) → t.readCell t.sp = s.tos) ∧
    (f.t2r = true → (f.n2a = true → idx (b2w s.tos) ≠ idx t.rp) → t.readCell t.rp = s.tos) ∧
    (f.r2p = true → f.n2a = true → idx (b2w s.tos) = idx t.rp → t.pc = b2w s.nos) ∧
    (f.r2p = true → f.t2r = true → (f.n2a = true → idx (b2w s.tos) ≠ idx t.rp) → t.pc = b2w s.tos) ∧
    (f.r2p = true → f.t2n = true → idx t.sp = idx t.rp →
      (f.n2a = true → idx (b2w s.tos) ≠ idx t.rp) → t.pc = b2w s.tos) ∧
    (f.r2p = true → f.rd = .minusOne → f.t2r = false → f.t2n = false → f.n2a = false →
      t.pc = b2w (s.readCell (s.rp - 1)))

/-! ### ALU opcodes 18 to 31 -/

/-- `save` (R230, with the spec's decisions D12, D13 and D21, log entries 5 and 8): the new top is the old
one, steps a to f run, and a save that succeeds leaves the whole image, as it was before the instruction, in
the block file, which it replaces whole (the model's, log entry 5); what a failed one leaves is a free value.
The words' high byte is of the layout of log entry 1 (D1). -/
def Obligations.SaveWritesImageBeforeItsStores : Prop :=
  ∀ (f : AluFields) (s : State), highByte (encode (.aluSave f)) = 0x72 ∧
    ∃ t, exec (.aluSave f) s = .next t ∧ AluEffect f s.tos s t ∧
      t.blockFile = (if Config.saveSucceeds s.saves = true then some (serialize 32768 s.mem)
        else Config.failedSaveFile s.saves) ∧
      t.input = s.input ∧ t.output = s.output ∧ t.status = s.status

/-- No program sees a save or its outcome: in registers, image, streams and status the state after it is
the state after opcode 0 with the same fields; a failure is only reported (R85; that reports are counted
is the model's, log entry 5). -/
def Obligations.SaveIsInvisibleToTheProgram : Prop :=
  ∀ (f : AluFields) (s : State), ∃ t u, exec (.aluSave f) s = .next t ∧ exec (.aluT f) s = .next u ∧
    SameCore u t ∧ t.input = u.input ∧ t.output = u.output ∧ t.status = u.status ∧
    t.diagnostics = s.diagnostics + (if Config.saveSucceeds s.saves = true then 0 else 1)

/-- `tx` (R231, with the spec's decisions D7, D15 and D21, log entry 8): the low byte of the old top is
sent, the new top is the next on stack, and only the deltas move the pointers. The words' high byte is of
the layout of log entry 1 (D1). -/
def Obligations.TxSendsLowByte : Prop :=
  ∀ (f : AluFields) (s : State), highByte (encode (.aluTx f)) = 0x73 ∧
    ∃ t, exec (.aluTx f) s = .next t ∧ AluEffect f s.nos s t ∧
      t.output = s.output ++ [BitVec.ofNat 8 (s.tos.toNat % 256)] ∧
      t.input = s.input ∧ t.blockFile = s.blockFile ∧ t.saves = s.saves ∧
      t.diagnostics = s.diagnostics ∧ t.status = s.status

/-- `rx` (R232, with the spec's decisions D8 and D21, log entry 8): a byte is zero-extended into the new top
and the stream moves on by one; at the end of input nothing changes but that the run has stopped cleanly;
with nothing supplied yet the machine waits (the last two statuses are how the model records R15's outcomes,
log entries 2 and 3). The words' high byte is of the layout of log entry 1 (D1). -/
def Obligations.RxReadsStopsOrWaits : Prop :=
  ∀ (f : AluFields) (s : State), highByte (encode (.aluRx f)) = 0x74 ∧
    (∀ b, s.input.bytes[s.input.pos]? = some b →
      ∃ t, exec (.aluRx f) s = .next t ∧ AluEffect f (BitVec.ofNat 16 b.toNat) s t ∧
        t.input = { s.input with pos := s.input.pos + 1 } ∧ t.output = s.output ∧
        t.blockFile = s.blockFile ∧ t.saves = s.saves ∧ t.diagnostics = s.diagnostics ∧
        t.status = s.status) ∧
    (s.input.bytes.length ≤ s.input.pos → s.input.closed = true →
      exec (.aluRx f) s = .next { s with status := .cleanStop }) ∧
    (s.input.bytes.length ≤ s.input.pos → s.input.closed = false →
      exec (.aluRx f) s = .next { s with status := .waiting })

/-- `bye` (R233): the run has halted with the old top, and nothing else changes, whatever the fields (the
status is how the model records `Halt`, log entry 2; that steps a to f do not run is the spec's decision
D9, log entry 8). The words' high byte is of the layout of log entry 1 (D1). -/
def Obligations.ByeHaltsWithOldTop : Prop :=
  ∀ (f : AluFields) (s : State), highByte (encode (.aluBye f)) = 0x75 ∧
    exec (.aluBye f) s = .next { s with status := .halted s.tos }

/-- Opcodes 22 to 31 raise the model's one fault, with the instruction word that `pc` addresses, under every
layout; it ends the run and changes nothing else (R200, R261, the spec's decision D11, log entry 7; that the
host finds the ended run as a status is the model's, log entry 13, and the default layout is that of log
entry 1, decision D1). -/
def Obligations.ReservedOpcodesFault : Prop :=
  (∀ (f : AluFields) (s : State),
    exec (.reserved22 f) s = .fault (.reservedAluOp s.fetch) ∧
    exec (.reserved23 f) s = .fault (.reservedAluOp s.fetch) ∧
    exec (.reserved24 f) s = .fault (.reservedAluOp s.fetch) ∧
    exec (.reserved25 f) s = .fault (.reservedAluOp s.fetch) ∧
    exec (.reserved26 f) s = .fault (.reservedAluOp s.fetch) ∧
    exec (.reserved27 f) s = .fault (.reservedAluOp s.fetch) ∧
    exec (.reserved28 f) s = .fault (.reservedAluOp s.fetch) ∧
    exec (.reserved29 f) s = .fault (.reservedAluOp s.fetch) ∧
    exec (.reserved30 f) s = .fault (.reservedAluOp s.fetch) ∧
    exec (.reserved31 f) s = .fault (.reservedAluOp s.fetch)) ∧
  (∀ (L : AluLayout) (s : State), s.canStep = true → s.fetch &&& 0xE000 = 0x6000 →
    22 ≤ (s.fetch.extractLsb' L.op 5).toNat → stepWith L s = .fault (.reservedAluOp s.fetch)) ∧
  ∀ s : State, s.canStep = true → s.fetch &&& 0xE000 = 0x6000 → 22 ≤ (s.fetch.extractLsb' 8 5).toNat →
    step s = .fault (.reservedAluOp s.fetch) ∧
    s.afterStep = some { s with status := .faulted s.fetch }

/-! ### The image loader and serializer -/

/-- The bytes of a save: two per cell, in order, low byte first (R80). -/
def Obligations.SavedBytesLayout : Prop :=
  ∀ (n : Nat) (m : Memory), (serialize n m).length = 2 * n ∧
    ∀ k < n, (serialize n m)[2 * k]? = some ((m.readCell k).extractLsb' 0 8) ∧
      (serialize n m)[2 * k + 1]? = some ((m.readCell k).extractLsb' 8 8)

/-- A load of a file that is long enough sets every cell from its two bytes, the low byte first,
and reads exactly 32768 words of it (R81). That a longer file loads, its further bytes without effect, is
the spec's decision D14 (R83, log entry 9). -/
def Obligations.LoadSetsEveryCell : Prop :=
  ∀ (file : List Byte) (m : Memory), 65536 ≤ file.length →
    (∃ m', loadImage file m = some m' ∧ ∀ k < 32768, ∃ lo hi,
      file[2 * k]? = some lo ∧ file[2 * k + 1]? = some hi ∧
      (m'.readCell k).toNat = lo.toNat + 256 * hi.toNat) ∧
    loadImage file m = loadImage (file.take 65536) m

/-- A short file, or one that cannot be opened, gives no state to run from (R82, the spec's decision D14,
log entry 9). -/
def Obligations.ShortLoadGivesNoState : Prop :=
  ∀ s : State, s.load none = none ∧
    ∀ file : List Byte, file.length < 65536 → s.load (some file) = none

/-- A whole image saved and loaded into a fresh one is the same image (R86). -/
def Obligations.SaveThenLoadRestoresImage : Prop :=
  ∀ m : Memory, m.wf = true → loadImage (serialize 32768 m) [] = some m

/-! ### The whole machine -/

/-- Every step keeps the invariant: the canonical form of the image, the bound on the input position,
and that a machine waits only at an input read it cannot answer yet. -/
def Obligations.EveryStepKeepsTheInvariant : Prop :=
  ∀ s t : State, s.Inv → step s = .next t → t.Inv

/-- The invariant holds after reset, and at every run entry on an image in canonical form with a stream
whose position is within its bytes. -/
def Obligations.ResetMeetsTheInvariant : Prop :=
  State.reset.Inv ∧ ∀ (s t : State) (i : InStream) (o : List Byte), s.mem.wf = true →
    i.pos ≤ i.bytes.length → s.enterRun i o = some t → t.Inv

/-- No instruction writes a cell outside the write rows of R66. That `bye` stores nothing whatever its flags
is the spec's decision D9 (R233, log entry 8). -/
def Obligations.OnlyListedCellsAreWritten : Prop :=
  ∀ (i : Instr) (s t : State), exec i s = .next t →
    ∀ a, a / 2 ∉ storedCells i s → t.mem.readByte a = s.mem.readByte a

/-- Only opcode 20 reads input, only opcode 19 writes output (R240, R241), and only opcode 18 saves (R65,
R230). The draw counter and the count of reports in the last clause are the model's own (log entry 5). -/
def Obligations.OnlyTheirOpcodesReachTheDevices : Prop :=
  ∀ (i : Instr) (s t : State), exec i s = .next t →
    (t.input ≠ s.input → ∃ f, i = .aluRx f) ∧
    (t.output ≠ s.output → ∃ f, i = .aluTx f) ∧
    (t.blockFile ≠ s.blockFile ∨ t.saves ≠ s.saves ∨ t.diagnostics ≠ s.diagnostics →
      ∃ f, i = .aluSave f)

/-- Which classes write which register (R31 to R33): call and branch leave `tos` and `sp` alone, and only
a call or an ALU word moves `rp`. -/
def Obligations.RegistersWrittenByClass : Prop :=
  ∀ (i : Instr) (s t : State), exec i s = .next t →
    (t.tos ≠ s.tos → (∃ n, i = .lit n) ∨ (∃ a, i = .zbranch a) ∨ i.aluForm?.isSome = true) ∧
    (t.sp ≠ s.sp → (∃ n, i = .lit n) ∨ (∃ a, i = .zbranch a) ∨ i.aluForm?.isSome = true) ∧
    (t.rp ≠ s.rp → (∃ a, i = .call a) ∨ i.aluForm?.isSome = true)

/-- Where control can go (R37, R38): a call or a branch to 0 to 8191, a return to 0 to 32767, and every
other instruction that completes to the next word. -/
def Obligations.ReachOfControlTransfers : Prop :=
  ∀ (i : Instr) (s t : State), exec i s = .next t → t.canStep = true → t.status ≠ .waiting →
    ((∃ a, i = .call a ∨ i = .branch a) ∧ t.pc.toNat < 8192) ∨
    ((∃ a, i = .zbranch a) ∧ (t.pc.toNat < 8192 ∨ t.pc = s.pc + 1)) ∨
    ((∃ op f, i.aluForm? = some (op, f) ∧ f.r2p = true) ∧ t.pc.toNat < 32768) ∨
    ((∃ n, i = .lit n) ∨ (∃ op f, i.aluForm? = some (op, f) ∧ f.r2p = false)) ∧ t.pc = s.pc + 1

/-- A program observes the streams, the block file and the status through opcode 20 alone: any other
instruction, run in two states with the same registers and image, leaves them the same, or faults in both
(R45, R85). That no draw of a save shows is the spec's decision D13 (log entry 5), that an output write
never fails is D15 and that `bye` leaves everything is D9 (log entry 8), and the fault is D11 (log entry 7).
-/
def Obligations.DevicesAreSeenByRxAlone : Prop :=
  ∀ (i : Instr) (s s' : State), (∀ f, i ≠ .aluRx f) → SameCore s s' →
    (∀ t, exec i s = .next t → ∃ t', exec i s' = .next t' ∧ SameCore t t') ∧
    (∀ r, exec i s = .fault r → exec i s' = .fault r)
end

