-- ==== Sys2Proof/Laws/State.lean ====
section
/-! SUPPORT. One lemma per field per update of the state, so that no proof unfolds a record update. -/

namespace Sys2Proof.Machine

variable (s : State)

section
variable (v : Word)
@[simp] theorem State.setPc_pc : (s.setPc v).pc = v := rfl
@[simp] theorem State.setPc_tos : (s.setPc v).tos = s.tos := rfl
@[simp] theorem State.setPc_sp : (s.setPc v).sp = s.sp := rfl
@[simp] theorem State.setPc_rp : (s.setPc v).rp = s.rp := rfl
@[simp] theorem State.setPc_mem : (s.setPc v).mem = s.mem := rfl
@[simp] theorem State.setPc_input : (s.setPc v).input = s.input := rfl
@[simp] theorem State.setPc_output : (s.setPc v).output = s.output := rfl
@[simp] theorem State.setPc_blockFile : (s.setPc v).blockFile = s.blockFile := rfl
@[simp] theorem State.setPc_saves : (s.setPc v).saves = s.saves := rfl
@[simp] theorem State.setPc_diagnostics : (s.setPc v).diagnostics = s.diagnostics := rfl
@[simp] theorem State.setPc_status : (s.setPc v).status = s.status := rfl
end

section
variable (v : Word)
@[simp] theorem State.setTos_pc : (s.setTos v).pc = s.pc := rfl
@[simp] theorem State.setTos_tos : (s.setTos v).tos = v := rfl
@[simp] theorem State.setTos_sp : (s.setTos v).sp = s.sp := rfl
@[simp] theorem State.setTos_rp : (s.setTos v).rp = s.rp := rfl
@[simp] theorem State.setTos_mem : (s.setTos v).mem = s.mem := rfl
@[simp] theorem State.setTos_input : (s.setTos v).input = s.input := rfl
@[simp] theorem State.setTos_output : (s.setTos v).output = s.output := rfl
@[simp] theorem State.setTos_blockFile : (s.setTos v).blockFile = s.blockFile := rfl
@[simp] theorem State.setTos_saves : (s.setTos v).saves = s.saves := rfl
@[simp] theorem State.setTos_diagnostics : (s.setTos v).diagnostics = s.diagnostics := rfl
@[simp] theorem State.setTos_status : (s.setTos v).status = s.status := rfl
end

section
variable (v : Word)
@[simp] theorem State.setSp_pc : (s.setSp v).pc = s.pc := rfl
@[simp] theorem State.setSp_tos : (s.setSp v).tos = s.tos := rfl
@[simp] theorem State.setSp_sp : (s.setSp v).sp = v := rfl
@[simp] theorem State.setSp_rp : (s.setSp v).rp = s.rp := rfl
@[simp] theorem State.setSp_mem : (s.setSp v).mem = s.mem := rfl
@[simp] theorem State.setSp_input : (s.setSp v).input = s.input := rfl
@[simp] theorem State.setSp_output : (s.setSp v).output = s.output := rfl
@[simp] theorem State.setSp_blockFile : (s.setSp v).blockFile = s.blockFile := rfl
@[simp] theorem State.setSp_saves : (s.setSp v).saves = s.saves := rfl
@[simp] theorem State.setSp_diagnostics : (s.setSp v).diagnostics = s.diagnostics := rfl
@[simp] theorem State.setSp_status : (s.setSp v).status = s.status := rfl
end

section
variable (v : Word)
@[simp] theorem State.setRp_pc : (s.setRp v).pc = s.pc := rfl
@[simp] theorem State.setRp_tos : (s.setRp v).tos = s.tos := rfl
@[simp] theorem State.setRp_sp : (s.setRp v).sp = s.sp := rfl
@[simp] theorem State.setRp_rp : (s.setRp v).rp = v := rfl
@[simp] theorem State.setRp_mem : (s.setRp v).mem = s.mem := rfl
@[simp] theorem State.setRp_input : (s.setRp v).input = s.input := rfl
@[simp] theorem State.setRp_output : (s.setRp v).output = s.output := rfl
@[simp] theorem State.setRp_blockFile : (s.setRp v).blockFile = s.blockFile := rfl
@[simp] theorem State.setRp_saves : (s.setRp v).saves = s.saves := rfl
@[simp] theorem State.setRp_diagnostics : (s.setRp v).diagnostics = s.diagnostics := rfl
@[simp] theorem State.setRp_status : (s.setRp v).status = s.status := rfl
end

section
variable (v : Memory)
@[simp] theorem State.setMem_pc : (s.setMem v).pc = s.pc := rfl
@[simp] theorem State.setMem_tos : (s.setMem v).tos = s.tos := rfl
@[simp] theorem State.setMem_sp : (s.setMem v).sp = s.sp := rfl
@[simp] theorem State.setMem_rp : (s.setMem v).rp = s.rp := rfl
@[simp] theorem State.setMem_mem : (s.setMem v).mem = v := rfl
@[simp] theorem State.setMem_input : (s.setMem v).input = s.input := rfl
@[simp] theorem State.setMem_output : (s.setMem v).output = s.output := rfl
@[simp] theorem State.setMem_blockFile : (s.setMem v).blockFile = s.blockFile := rfl
@[simp] theorem State.setMem_saves : (s.setMem v).saves = s.saves := rfl
@[simp] theorem State.setMem_diagnostics : (s.setMem v).diagnostics = s.diagnostics := rfl
@[simp] theorem State.setMem_status : (s.setMem v).status = s.status := rfl
end

section
variable (v : InStream)
@[simp] theorem State.setInput_pc : (s.setInput v).pc = s.pc := rfl
@[simp] theorem State.setInput_tos : (s.setInput v).tos = s.tos := rfl
@[simp] theorem State.setInput_sp : (s.setInput v).sp = s.sp := rfl
@[simp] theorem State.setInput_rp : (s.setInput v).rp = s.rp := rfl
@[simp] theorem State.setInput_mem : (s.setInput v).mem = s.mem := rfl
@[simp] theorem State.setInput_input : (s.setInput v).input = v := rfl
@[simp] theorem State.setInput_output : (s.setInput v).output = s.output := rfl
@[simp] theorem State.setInput_blockFile : (s.setInput v).blockFile = s.blockFile := rfl
@[simp] theorem State.setInput_saves : (s.setInput v).saves = s.saves := rfl
@[simp] theorem State.setInput_diagnostics : (s.setInput v).diagnostics = s.diagnostics := rfl
@[simp] theorem State.setInput_status : (s.setInput v).status = s.status := rfl
end

section
variable (v : List Byte)
@[simp] theorem State.setOutput_pc : (s.setOutput v).pc = s.pc := rfl
@[simp] theorem State.setOutput_tos : (s.setOutput v).tos = s.tos := rfl
@[simp] theorem State.setOutput_sp : (s.setOutput v).sp = s.sp := rfl
@[simp] theorem State.setOutput_rp : (s.setOutput v).rp = s.rp := rfl
@[simp] theorem State.setOutput_mem : (s.setOutput v).mem = s.mem := rfl
@[simp] theorem State.setOutput_input : (s.setOutput v).input = s.input := rfl
@[simp] theorem State.setOutput_output : (s.setOutput v).output = v := rfl
@[simp] theorem State.setOutput_blockFile : (s.setOutput v).blockFile = s.blockFile := rfl
@[simp] theorem State.setOutput_saves : (s.setOutput v).saves = s.saves := rfl
@[simp] theorem State.setOutput_diagnostics : (s.setOutput v).diagnostics = s.diagnostics := rfl
@[simp] theorem State.setOutput_status : (s.setOutput v).status = s.status := rfl
end

section
variable (v : Option (List Byte))
@[simp] theorem State.setBlockFile_pc : (s.setBlockFile v).pc = s.pc := rfl
@[simp] theorem State.setBlockFile_tos : (s.setBlockFile v).tos = s.tos := rfl
@[simp] theorem State.setBlockFile_sp : (s.setBlockFile v).sp = s.sp := rfl
@[simp] theorem State.setBlockFile_rp : (s.setBlockFile v).rp = s.rp := rfl
@[simp] theorem State.setBlockFile_mem : (s.setBlockFile v).mem = s.mem := rfl
@[simp] theorem State.setBlockFile_input : (s.setBlockFile v).input = s.input := rfl
@[simp] theorem State.setBlockFile_output : (s.setBlockFile v).output = s.output := rfl
@[simp] theorem State.setBlockFile_blockFile : (s.setBlockFile v).blockFile = v := rfl
@[simp] theorem State.setBlockFile_saves : (s.setBlockFile v).saves = s.saves := rfl
@[simp] theorem State.setBlockFile_diagnostics : (s.setBlockFile v).diagnostics = s.diagnostics := rfl
@[simp] theorem State.setBlockFile_status : (s.setBlockFile v).status = s.status := rfl
end

section
variable (v : Nat)
@[simp] theorem State.setSaves_pc : (s.setSaves v).pc = s.pc := rfl
@[simp] theorem State.setSaves_tos : (s.setSaves v).tos = s.tos := rfl
@[simp] theorem State.setSaves_sp : (s.setSaves v).sp = s.sp := rfl
@[simp] theorem State.setSaves_rp : (s.setSaves v).rp = s.rp := rfl
@[simp] theorem State.setSaves_mem : (s.setSaves v).mem = s.mem := rfl
@[simp] theorem State.setSaves_input : (s.setSaves v).input = s.input := rfl
@[simp] theorem State.setSaves_output : (s.setSaves v).output = s.output := rfl
@[simp] theorem State.setSaves_blockFile : (s.setSaves v).blockFile = s.blockFile := rfl
@[simp] theorem State.setSaves_saves : (s.setSaves v).saves = v := rfl
@[simp] theorem State.setSaves_diagnostics : (s.setSaves v).diagnostics = s.diagnostics := rfl
@[simp] theorem State.setSaves_status : (s.setSaves v).status = s.status := rfl
end

section
variable (v : Nat)
@[simp] theorem State.setDiagnostics_pc : (s.setDiagnostics v).pc = s.pc := rfl
@[simp] theorem State.setDiagnostics_tos : (s.setDiagnostics v).tos = s.tos := rfl
@[simp] theorem State.setDiagnostics_sp : (s.setDiagnostics v).sp = s.sp := rfl
@[simp] theorem State.setDiagnostics_rp : (s.setDiagnostics v).rp = s.rp := rfl
@[simp] theorem State.setDiagnostics_mem : (s.setDiagnostics v).mem = s.mem := rfl
@[simp] theorem State.setDiagnostics_input : (s.setDiagnostics v).input = s.input := rfl
@[simp] theorem State.setDiagnostics_output : (s.setDiagnostics v).output = s.output := rfl
@[simp] theorem State.setDiagnostics_blockFile : (s.setDiagnostics v).blockFile = s.blockFile := rfl
@[simp] theorem State.setDiagnostics_saves : (s.setDiagnostics v).saves = s.saves := rfl
@[simp] theorem State.setDiagnostics_diagnostics : (s.setDiagnostics v).diagnostics = v := rfl
@[simp] theorem State.setDiagnostics_status : (s.setDiagnostics v).status = s.status := rfl
end

section
variable (v : RunStatus)
@[simp] theorem State.setStatus_pc : (s.setStatus v).pc = s.pc := rfl
@[simp] theorem State.setStatus_tos : (s.setStatus v).tos = s.tos := rfl
@[simp] theorem State.setStatus_sp : (s.setStatus v).sp = s.sp := rfl
@[simp] theorem State.setStatus_rp : (s.setStatus v).rp = s.rp := rfl
@[simp] theorem State.setStatus_mem : (s.setStatus v).mem = s.mem := rfl
@[simp] theorem State.setStatus_input : (s.setStatus v).input = s.input := rfl
@[simp] theorem State.setStatus_output : (s.setStatus v).output = s.output := rfl
@[simp] theorem State.setStatus_blockFile : (s.setStatus v).blockFile = s.blockFile := rfl
@[simp] theorem State.setStatus_saves : (s.setStatus v).saves = s.saves := rfl
@[simp] theorem State.setStatus_diagnostics : (s.setStatus v).diagnostics = s.diagnostics := rfl
@[simp] theorem State.setStatus_status : (s.setStatus v).status = v := rfl
end

@[simp] theorem State.setMem_setMem (m m' : Memory) : (s.setMem m).setMem m' = s.setMem m' := rfl
@[simp] theorem State.setPc_readCell (v w : Word) : (s.setPc v).readCell w = s.readCell w := rfl
@[simp] theorem State.setTos_readCell (v w : Word) : (s.setTos v).readCell w = s.readCell w := rfl
@[simp] theorem State.setSp_readCell (v w : Word) : (s.setSp v).readCell w = s.readCell w := rfl
@[simp] theorem State.setRp_readCell (v w : Word) : (s.setRp v).readCell w = s.readCell w := rfl
@[simp] theorem State.setInput_readCell (i : InStream) (w : Word) :
    (s.setInput i).readCell w = s.readCell w := rfl
@[simp] theorem State.setOutput_readCell (o : List Byte) (w : Word) :
    (s.setOutput o).readCell w = s.readCell w := rfl
@[simp] theorem State.setBlockFile_readCell (b : Option (List Byte)) (w : Word) :
    (s.setBlockFile b).readCell w = s.readCell w := rfl
@[simp] theorem State.setSaves_readCell (n : Nat) (w : Word) :
    (s.setSaves n).readCell w = s.readCell w := rfl
@[simp] theorem State.setDiagnostics_readCell (n : Nat) (w : Word) :
    (s.setDiagnostics n).readCell w = s.readCell w := rfl
@[simp] theorem State.setStatus_readCell (r : RunStatus) (w : Word) :
    (s.setStatus r).readCell w = s.readCell w := rfl

end Sys2Proof.Machine
end

