-- ==== Sys2Proof/Laws/Memory.lean ====
section
/-! SUPPORT. The laws of the memory image: a read after a write, the canonical form that every write
keeps, and that equal reads make equal images in that form. -/

namespace Sys2Proof.Machine

/-! ### Bytes of a word -/

@[simp] theorem wordOfBytes_lowByte_highByte (v : Word) : wordOfBytes (lowByte v) (highByte v) = v := by
  apply BitVec.eq_of_getLsbD_eq
  intro i hi
  by_cases h : i < 8
  · simp [wordOfBytes, lowByte, highByte, h, hi]
  · simp [wordOfBytes, lowByte, highByte, h, hi, show i - 8 < 8 by omega, show 8 + (i - 8) = i by omega]

@[simp] theorem lowByte_wordOfBytes (lo hi : Byte) : lowByte (wordOfBytes lo hi) = lo := by
  apply BitVec.eq_of_getLsbD_eq
  intro i h
  simp [wordOfBytes, lowByte, h, show i < 16 by omega]

@[simp] theorem highByte_wordOfBytes (lo hi : Byte) : highByte (wordOfBytes lo hi) = hi := by
  apply BitVec.eq_of_getLsbD_eq
  intro i h
  simp [wordOfBytes, highByte, h, show 8 + i < 16 by omega]

/-! ### Reads after writes -/

@[simp] theorem Memory.readByte_nil (a : Nat) : Memory.readByte [] a = 0 := rfl

theorem Memory.readByte_cons (c : Host.Cell) (m : Memory) (a : Nat) :
    Memory.readByte (c :: m) a = if c.1 = a then c.2 else Memory.readByte m a := rfl

theorem Memory.readByte_erase (m : Memory) (a b : Nat) :
    (m.erase a).readByte b = if b = a then 0 else m.readByte b := by
  induction m with
  | nil => simp [Memory.erase]
  | cons c m ih =>
    simp only [Memory.erase, List.filter_cons] at ih ⊢
    by_cases hc : c.1 = a
    · simp only [hc, bne_self_eq_false, Bool.false_eq_true, if_false, ih, Memory.readByte_cons]
      by_cases hb : b = a
      · simp [hb]
      · simp [hb, Ne.symm hb]
    · simp only [bne_iff_ne, ne_eq, hc, not_false_eq_true, if_true, Memory.readByte_cons, ih]
      by_cases hb : b = a
      · subst hb
        simp [hc]
      · simp [hb]

theorem Memory.readByte_insert (m : Memory) (a b : Nat) (v : Byte) (h : ∀ c ∈ m, c.1 ≠ a) :
    (m.insert a v).readByte b = if b = a then v else m.readByte b := by
  induction m with
  | nil => simp [Memory.insert, Memory.readByte_cons, eq_comm]
  | cons c m ih =>
    have hc : c.1 ≠ a := h c (by simp)
    have ih := ih (fun d hd => h d (by simp [hd]))
    unfold Memory.insert
    split
    · simp [Memory.readByte_cons, eq_comm]
    · simp only [Memory.readByte_cons, ih]
      by_cases hb : b = a
      · subst hb
        simp [hc]
      · simp [hb]

theorem Memory.ne_of_mem_erase {m : Memory} {a : Nat} {c : Host.Cell} (h : c ∈ m.erase a) : c.1 ≠ a := by
  simpa using (List.mem_filter.mp h).2

/-- Reading a byte after writing one, in any image. -/
theorem Memory.readByte_writeByte (m : Memory) (a b : Nat) (v : Byte) :
    (m.writeByte a v).readByte b = if b = a then v else m.readByte b := by
  unfold Memory.writeByte
  split
  · simp only [Memory.readByte_erase, *]
    rfl
  · rw [Memory.readByte_insert _ _ _ _ (fun c hc => Memory.ne_of_mem_erase hc), Memory.readByte_erase]
    split <;> rfl

/-- Reading a byte after writing a cell: its two bytes change and no other does. -/
theorem Memory.readByte_writeCell (m : Memory) (k a : Nat) (v : Word) :
    (m.writeCell k v).readByte a =
      if a / 2 = k then (if a % 2 = 0 then lowByte v else highByte v) else m.readByte a := by
  simp only [Memory.writeCell, Memory.readByte_writeByte]
  by_cases h1 : a = 2 * k + 1
  · subst h1
    simp [show (2 * k + 1) / 2 = k by omega, show (2 * k + 1) % 2 = 1 by omega]
  · by_cases h2 : a = 2 * k
    · subst h2
      simp
    · simp [h1, h2, show ¬ a / 2 = k by omega]

/-- Reading a cell after writing one. -/
theorem Memory.readCell_writeCell (m : Memory) (k j : Nat) (v : Word) :
    (m.writeCell k v).readCell j = if j = k then v else m.readCell j := by
  simp only [Memory.readCell, Memory.readByte_writeCell, show 2 * j / 2 = j by omega,
    show (2 * j + 1) / 2 = j by omega, show 2 * j % 2 = 0 by omega, show (2 * j + 1) % 2 = 1 by omega]
  split <;> simp

@[simp] theorem Memory.readCell_nil (k : Nat) : Memory.readCell [] k = 0 := by
  simp only [Memory.readCell, Memory.readByte_nil]
  decide

/-- A cell is settled by its two bytes. -/
theorem Memory.readCell_congr {m m' : Memory} {k : Nat}
    (h : ∀ a, a / 2 = k → m.readByte a = m'.readByte a) : m.readCell k = m'.readCell k := by
  simp only [Memory.readCell, h (2 * k) (by omega), h (2 * k + 1) (by omega)]

theorem Memory.lowByte_readCell (m : Memory) (k : Nat) : lowByte (m.readCell k) = m.readByte (2 * k) := by
  simp [Memory.readCell]

theorem Memory.highByte_readCell (m : Memory) (k : Nat) :
    highByte (m.readCell k) = m.readByte (2 * k + 1) := by
  simp [Memory.readCell]

/-! ### The canonical form -/

theorem Memory.wf_iff (m : Memory) :
    m.wf = true ↔ m.Pairwise (fun c d => c.1 < d.1) ∧ ∀ c ∈ m, c.1 < 65536 ∧ c.2 ≠ 0 := by
  simp only [Memory.wf, Memory.unlisted, Bool.and_eq_true, decide_eq_true_eq, List.all_eq_true,
    bne_iff_ne]
  rfl

theorem Memory.nil_wf : Memory.wf [] = true := by decide

theorem Memory.mem_insert {m : Memory} {a : Nat} {v : Byte} {c : Host.Cell} :
    c ∈ m.insert a v ↔ c = (a, v) ∨ c ∈ m := by
  induction m with
  | nil => simp [Memory.insert]
  | cons d m ih =>
    unfold Memory.insert
    split
    · simp
    · simp only [List.mem_cons, ih]
      tauto

theorem Memory.erase_wf {m : Memory} (h : m.wf = true) (a : Nat) : (m.erase a).wf = true := by
  rw [Memory.wf_iff] at h ⊢
  exact ⟨h.1.filter _, fun c hc => h.2 c (List.mem_of_mem_filter hc)⟩

theorem Memory.insert_pairwise {m : Memory} {a : Nat} {v : Byte}
    (h : m.Pairwise (fun c d => c.1 < d.1)) (ha : ∀ c ∈ m, c.1 ≠ a) :
    (m.insert a v).Pairwise (fun c d => c.1 < d.1) := by
  induction m with
  | nil => simp [Memory.insert]
  | cons d m ih =>
    rw [List.pairwise_cons] at h
    have hd : d.1 ≠ a := ha d (by simp)
    unfold Memory.insert
    split
    · rename_i hlt
      rw [List.pairwise_cons, List.pairwise_cons]
      refine ⟨fun c hc => ?_, h⟩
      rcases List.mem_cons.mp hc with rfl | hc
      · exact hlt
      · exact lt_trans hlt (h.1 c hc)
    · rename_i hlt
      rw [List.pairwise_cons]
      refine ⟨fun c hc => ?_, ih h.2 (fun c hc => ha c (by simp [hc]))⟩
      rcases Memory.mem_insert.mp hc with rfl | hc
      · show d.1 < a
        omega
      · exact h.1 c hc

theorem Memory.insert_wf {m : Memory} (h : m.wf = true) {a : Nat} {v : Byte} (hm : ∀ c ∈ m, c.1 ≠ a)
    (ha : a < 65536) (hv : v ≠ 0) : (m.insert a v).wf = true := by
  rw [Memory.wf_iff] at h ⊢
  refine ⟨Memory.insert_pairwise h.1 hm, fun c hc => ?_⟩
  rcases Memory.mem_insert.mp hc with rfl | hc
  · exact ⟨ha, hv⟩
  · exact h.2 c hc

/-- Writing a byte of the image keeps the canonical form. -/
theorem Memory.writeByte_wf {m : Memory} (h : m.wf = true) {a : Nat} (ha : a < 65536) (v : Byte) :
    (m.writeByte a v).wf = true := by
  unfold Memory.writeByte
  split
  · exact Memory.erase_wf h a
  · rename_i hv
    exact Memory.insert_wf (Memory.erase_wf h a) (fun c hc => Memory.ne_of_mem_erase hc) ha hv

/-- Writing a cell of the image keeps the canonical form. -/
theorem Memory.writeCell_wf {m : Memory} (h : m.wf = true) {k : Nat} (hk : k < 32768) (v : Word) :
    (m.writeCell k v).wf = true :=
  Memory.writeByte_wf (Memory.writeByte_wf h (by omega) _) (by omega) _

theorem Memory.readByte_of_forall_ne {m : Memory} {a : Nat} (h : ∀ c ∈ m, c.1 ≠ a) : m.readByte a = 0 := by
  induction m with
  | nil => rfl
  | cons c m ih =>
    rw [Memory.readByte_cons, if_neg (h c (by simp)), ih (fun d hd => h d (by simp [hd]))]

/-- In canonical form an image is settled by what its addresses read as. -/
theorem Memory.ext_of_wf {m m' : Memory} (h : m.wf = true) (h' : m'.wf = true)
    (heq : ∀ a, m.readByte a = m'.readByte a) : m = m' := by
  induction m generalizing m' with
  | nil =>
    cases m' with
    | nil => rfl
    | cons d m' =>
      have hd := ((Memory.wf_iff _).mp h').2 d (by simp)
      have := heq d.1
      rw [Memory.readByte_cons, if_pos rfl] at this
      exact absurd this.symm hd.2
  | cons c m ih =>
    have hw := (Memory.wf_iff _).mp h
    have hp := List.pairwise_cons.mp hw.1
    have hc := heq c.1
    rw [Memory.readByte_cons, if_pos rfl] at hc
    cases m' with
    | nil => exact absurd hc (hw.2 c (by simp)).2
    | cons d m' =>
      have hw' := (Memory.wf_iff _).mp h'
      have hp' := List.pairwise_cons.mp hw'.1
      have hd := heq d.1
      rw [Memory.readByte_cons d, if_pos rfl] at hd
      have hcd : c.1 = d.1 := by
        rcases lt_trichotomy c.1 d.1 with hlt | heq' | hgt
        · rw [Memory.readByte_of_forall_ne (m := d :: m')] at hc
          · exact absurd hc (hw.2 c (by simp)).2
          · intro e he
            rcases List.mem_cons.mp he with rfl | he
            · omega
            · have := hp'.1 e he
              omega
        · exact heq'
        · rw [Memory.readByte_of_forall_ne (m := c :: m)] at hd
          · exact absurd hd.symm (hw'.2 d (by simp)).2
          · intro e he
            rcases List.mem_cons.mp he with rfl | he
            · omega
            · have := hp.1 e he
              omega
      have hval : c.2 = d.2 := by
        rw [hc, Memory.readByte_cons, if_pos hcd.symm]
      have hcell : c = d := Prod.ext hcd hval
      subst hcell
      congr 1
      refine ih ((Memory.wf_iff _).mpr ⟨hp.2, fun e he => hw.2 e (by simp [he])⟩)
        ((Memory.wf_iff _).mpr ⟨hp'.2, fun e he => hw'.2 e (by simp [he])⟩) (fun a => ?_)
      have := heq a
      rw [Memory.readByte_cons, Memory.readByte_cons] at this
      by_cases ha : c.1 = a
      · rw [Memory.readByte_of_forall_ne, Memory.readByte_of_forall_ne]
        · intro e he
          have := hp'.1 e he
          omega
        · intro e he
          have := hp.1 e he
          omega
      · simpa [ha] using this

end Sys2Proof.Machine
end

