-- ==== Sys2Proof/Laws/Ops.lean ====
section
/-! SUPPORT. What each named operation of the machine does to each field of the state, and how the
address translator computes. -/

namespace Sys2Proof.Machine

/-! ### Address translation -/

theorem idx_eq (w : Word) : idx w = w.toNat % 32768 := rfl

theorem idx_lt (w : Word) : idx w < 32768 := Nat.mod_lt _ (by decide)

@[simp] theorem b2w_toNat (a : Word) : (b2w a).toNat = a.toNat / 2 := by
  simp [b2w, Nat.shiftRight_eq_div_pow]

@[simp] theorem w2b_toNat (w : Word) : (w2b w).toNat = w.toNat * 2 % 65536 := by
  simp [w2b, Nat.shiftLeft_eq]

/-- A byte address always names a cell without further reduction (R64). -/
theorem idx_b2w (a : Word) : idx (b2w a) = a.toNat / 2 := by
  rw [idx_eq, b2w_toNat]
  omega

variable (s : State)

/-! ### Memory through the state -/

theorem State.readCell_def (w : Word) : s.readCell w = s.mem.readCell (idx w) := rfl

theorem State.readCell_congr {s t : State} (h : t.mem = s.mem) (w : Word) : t.readCell w = s.readCell w := by
  simp [State.readCell, h]

section
variable (w v : Word)
@[simp] theorem State.writeCell_pc : (s.writeCell w v).pc = s.pc := rfl
@[simp] theorem State.writeCell_tos : (s.writeCell w v).tos = s.tos := rfl
@[simp] theorem State.writeCell_sp : (s.writeCell w v).sp = s.sp := rfl
@[simp] theorem State.writeCell_rp : (s.writeCell w v).rp = s.rp := rfl
@[simp] theorem State.writeCell_mem : (s.writeCell w v).mem = s.mem.writeCell (idx w) v := rfl
@[simp] theorem State.writeCell_input : (s.writeCell w v).input = s.input := rfl
@[simp] theorem State.writeCell_output : (s.writeCell w v).output = s.output := rfl
@[simp] theorem State.writeCell_blockFile : (s.writeCell w v).blockFile = s.blockFile := rfl
@[simp] theorem State.writeCell_saves : (s.writeCell w v).saves = s.saves := rfl
@[simp] theorem State.writeCell_diagnostics : (s.writeCell w v).diagnostics = s.diagnostics := rfl
@[simp] theorem State.writeCell_status : (s.writeCell w v).status = s.status := rfl
end

/-- A read of a cell after a write of one (R12, R63, R90). -/
theorem State.readCell_writeCell (w w' v : Word) :
    (s.writeCell w v).readCell w' = if idx w' = idx w then v else s.readCell w' :=
  Memory.readCell_writeCell _ _ _ _

/-! ### Stack operations -/

section
variable (v : Word)
@[simp] theorem State.pushData_pc : (s.pushData v).pc = s.pc := rfl
@[simp] theorem State.pushData_tos : (s.pushData v).tos = s.tos := rfl
@[simp] theorem State.pushData_sp : (s.pushData v).sp = s.sp + 1 := rfl
@[simp] theorem State.pushData_rp : (s.pushData v).rp = s.rp := rfl
@[simp] theorem State.pushData_mem : (s.pushData v).mem = s.mem.writeCell (idx (s.sp + 1)) v := rfl
@[simp] theorem State.pushData_input : (s.pushData v).input = s.input := rfl
@[simp] theorem State.pushData_output : (s.pushData v).output = s.output := rfl
@[simp] theorem State.pushData_blockFile : (s.pushData v).blockFile = s.blockFile := rfl
@[simp] theorem State.pushData_saves : (s.pushData v).saves = s.saves := rfl
@[simp] theorem State.pushData_diagnostics : (s.pushData v).diagnostics = s.diagnostics := rfl
@[simp] theorem State.pushData_status : (s.pushData v).status = s.status := rfl
end

section
variable (v : Word)
@[simp] theorem State.pushReturn_pc : (s.pushReturn v).pc = s.pc := rfl
@[simp] theorem State.pushReturn_tos : (s.pushReturn v).tos = s.tos := rfl
@[simp] theorem State.pushReturn_sp : (s.pushReturn v).sp = s.sp := rfl
@[simp] theorem State.pushReturn_rp : (s.pushReturn v).rp = s.rp + 1 := rfl
@[simp] theorem State.pushReturn_mem : (s.pushReturn v).mem = s.mem.writeCell (idx (s.rp + 1)) v := rfl
@[simp] theorem State.pushReturn_input : (s.pushReturn v).input = s.input := rfl
@[simp] theorem State.pushReturn_output : (s.pushReturn v).output = s.output := rfl
@[simp] theorem State.pushReturn_blockFile : (s.pushReturn v).blockFile = s.blockFile := rfl
@[simp] theorem State.pushReturn_saves : (s.pushReturn v).saves = s.saves := rfl
@[simp] theorem State.pushReturn_diagnostics : (s.pushReturn v).diagnostics = s.diagnostics := rfl
@[simp] theorem State.pushReturn_status : (s.pushReturn v).status = s.status := rfl
end

@[simp] theorem State.popData_pc : (s.popData).pc = s.pc := rfl
@[simp] theorem State.popData_tos : (s.popData).tos = s.readCell s.sp := rfl
@[simp] theorem State.popData_sp : (s.popData).sp = s.sp - 1 := rfl
@[simp] theorem State.popData_rp : (s.popData).rp = s.rp := rfl
@[simp] theorem State.popData_mem : (s.popData).mem = s.mem := rfl
@[simp] theorem State.popData_input : (s.popData).input = s.input := rfl
@[simp] theorem State.popData_output : (s.popData).output = s.output := rfl
@[simp] theorem State.popData_blockFile : (s.popData).blockFile = s.blockFile := rfl
@[simp] theorem State.popData_saves : (s.popData).saves = s.saves := rfl
@[simp] theorem State.popData_diagnostics : (s.popData).diagnostics = s.diagnostics := rfl
@[simp] theorem State.popData_status : (s.popData).status = s.status := rfl

@[simp] theorem State.advance_pc : (s.advance).pc = s.pc + 1 := rfl
@[simp] theorem State.advance_tos : (s.advance).tos = s.tos := rfl
@[simp] theorem State.advance_sp : (s.advance).sp = s.sp := rfl
@[simp] theorem State.advance_rp : (s.advance).rp = s.rp := rfl
@[simp] theorem State.advance_mem : (s.advance).mem = s.mem := rfl
@[simp] theorem State.advance_input : (s.advance).input = s.input := rfl
@[simp] theorem State.advance_output : (s.advance).output = s.output := rfl
@[simp] theorem State.advance_blockFile : (s.advance).blockFile = s.blockFile := rfl
@[simp] theorem State.advance_saves : (s.advance).saves = s.saves := rfl
@[simp] theorem State.advance_diagnostics : (s.advance).diagnostics = s.diagnostics := rfl
@[simp] theorem State.advance_status : (s.advance).status = s.status := rfl

/-! ### The byte streams -/

@[simp] theorem State.consumeByte_pc : (s.consumeByte).pc = s.pc := rfl
@[simp] theorem State.consumeByte_tos : (s.consumeByte).tos = s.tos := rfl
@[simp] theorem State.consumeByte_sp : (s.consumeByte).sp = s.sp := rfl
@[simp] theorem State.consumeByte_rp : (s.consumeByte).rp = s.rp := rfl
@[simp] theorem State.consumeByte_mem : (s.consumeByte).mem = s.mem := rfl
@[simp] theorem State.consumeByte_input : (s.consumeByte).input = s.input.advance := rfl
@[simp] theorem State.consumeByte_output : (s.consumeByte).output = s.output := rfl
@[simp] theorem State.consumeByte_blockFile : (s.consumeByte).blockFile = s.blockFile := rfl
@[simp] theorem State.consumeByte_saves : (s.consumeByte).saves = s.saves := rfl
@[simp] theorem State.consumeByte_diagnostics : (s.consumeByte).diagnostics = s.diagnostics := rfl
@[simp] theorem State.consumeByte_status : (s.consumeByte).status = s.status := rfl

section
variable (b : Byte)
@[simp] theorem State.outWrite_pc : (s.outWrite b).pc = s.pc := rfl
@[simp] theorem State.outWrite_tos : (s.outWrite b).tos = s.tos := rfl
@[simp] theorem State.outWrite_sp : (s.outWrite b).sp = s.sp := rfl
@[simp] theorem State.outWrite_rp : (s.outWrite b).rp = s.rp := rfl
@[simp] theorem State.outWrite_mem : (s.outWrite b).mem = s.mem := rfl
@[simp] theorem State.outWrite_input : (s.outWrite b).input = s.input := rfl
@[simp] theorem State.outWrite_output : (s.outWrite b).output = s.output ++ [b] := rfl
@[simp] theorem State.outWrite_blockFile : (s.outWrite b).blockFile = s.blockFile := rfl
@[simp] theorem State.outWrite_saves : (s.outWrite b).saves = s.saves := rfl
@[simp] theorem State.outWrite_diagnostics : (s.outWrite b).diagnostics = s.diagnostics := rfl
@[simp] theorem State.outWrite_status : (s.outWrite b).status = s.status := rfl
end

@[simp] theorem InStream.advance_bytes (i : InStream) : i.advance.bytes = i.bytes := rfl
@[simp] theorem InStream.advance_pos (i : InStream) : i.advance.pos = i.pos + 1 := rfl
@[simp] theorem InStream.advance_closed (i : InStream) : i.advance.closed = i.closed := rfl

theorem InStream.answer_eq_byte {i : InStream} {b : Byte} :
    i.answer = .byte b ↔ i.bytes[i.pos]? = some b := by
  unfold InStream.answer
  split
  · simp [*]
  · split <;> simp [*]

theorem InStream.answer_eq_eof {i : InStream} :
    i.answer = .eof ↔ i.bytes.length ≤ i.pos ∧ i.closed = true := by
  unfold InStream.answer
  split
  · rename_i b hb
    have := (List.getElem?_eq_some_iff.mp hb).1
    simp
    omega
  · rename_i hb
    have := List.getElem?_eq_none_iff.mp hb
    split <;> simp [*]

theorem InStream.answer_eq_pending {i : InStream} :
    i.answer = .pending ↔ i.bytes.length ≤ i.pos ∧ i.closed = false := by
  unfold InStream.answer
  split
  · rename_i b hb
    have := (List.getElem?_eq_some_iff.mp hb).1
    simp
    omega
  · rename_i hb
    have := List.getElem?_eq_none_iff.mp hb
    split <;> simp_all

/-! ### How a run stops, waits and goes on -/

section
variable (v : Word)
@[simp] theorem State.halt_pc : (s.halt v).pc = s.pc := rfl
@[simp] theorem State.halt_tos : (s.halt v).tos = s.tos := rfl
@[simp] theorem State.halt_sp : (s.halt v).sp = s.sp := rfl
@[simp] theorem State.halt_rp : (s.halt v).rp = s.rp := rfl
@[simp] theorem State.halt_mem : (s.halt v).mem = s.mem := rfl
@[simp] theorem State.halt_input : (s.halt v).input = s.input := rfl
@[simp] theorem State.halt_output : (s.halt v).output = s.output := rfl
@[simp] theorem State.halt_blockFile : (s.halt v).blockFile = s.blockFile := rfl
@[simp] theorem State.halt_saves : (s.halt v).saves = s.saves := rfl
@[simp] theorem State.halt_diagnostics : (s.halt v).diagnostics = s.diagnostics := rfl
@[simp] theorem State.halt_status : (s.halt v).status = .halted v := rfl
end

@[simp] theorem State.cleanStop_pc : (s.cleanStop).pc = s.pc := rfl
@[simp] theorem State.cleanStop_tos : (s.cleanStop).tos = s.tos := rfl
@[simp] theorem State.cleanStop_sp : (s.cleanStop).sp = s.sp := rfl
@[simp] theorem State.cleanStop_rp : (s.cleanStop).rp = s.rp := rfl
@[simp] theorem State.cleanStop_mem : (s.cleanStop).mem = s.mem := rfl
@[simp] theorem State.cleanStop_input : (s.cleanStop).input = s.input := rfl
@[simp] theorem State.cleanStop_output : (s.cleanStop).output = s.output := rfl
@[simp] theorem State.cleanStop_blockFile : (s.cleanStop).blockFile = s.blockFile := rfl
@[simp] theorem State.cleanStop_saves : (s.cleanStop).saves = s.saves := rfl
@[simp] theorem State.cleanStop_diagnostics : (s.cleanStop).diagnostics = s.diagnostics := rfl
@[simp] theorem State.cleanStop_status : (s.cleanStop).status = .cleanStop := rfl

@[simp] theorem State.wait_pc : (s.wait).pc = s.pc := rfl
@[simp] theorem State.wait_tos : (s.wait).tos = s.tos := rfl
@[simp] theorem State.wait_sp : (s.wait).sp = s.sp := rfl
@[simp] theorem State.wait_rp : (s.wait).rp = s.rp := rfl
@[simp] theorem State.wait_mem : (s.wait).mem = s.mem := rfl
@[simp] theorem State.wait_input : (s.wait).input = s.input := rfl
@[simp] theorem State.wait_output : (s.wait).output = s.output := rfl
@[simp] theorem State.wait_blockFile : (s.wait).blockFile = s.blockFile := rfl
@[simp] theorem State.wait_saves : (s.wait).saves = s.saves := rfl
@[simp] theorem State.wait_diagnostics : (s.wait).diagnostics = s.diagnostics := rfl
@[simp] theorem State.wait_status : (s.wait).status = .waiting := rfl

@[simp] theorem State.resume_pc : (s.resume).pc = s.pc := rfl
@[simp] theorem State.resume_tos : (s.resume).tos = s.tos := rfl
@[simp] theorem State.resume_sp : (s.resume).sp = s.sp := rfl
@[simp] theorem State.resume_rp : (s.resume).rp = s.rp := rfl
@[simp] theorem State.resume_mem : (s.resume).mem = s.mem := rfl
@[simp] theorem State.resume_input : (s.resume).input = s.input := rfl
@[simp] theorem State.resume_output : (s.resume).output = s.output := rfl
@[simp] theorem State.resume_blockFile : (s.resume).blockFile = s.blockFile := rfl
@[simp] theorem State.resume_saves : (s.resume).saves = s.saves := rfl
@[simp] theorem State.resume_diagnostics : (s.resume).diagnostics = s.diagnostics := rfl
@[simp] theorem State.resume_status : (s.resume).status = .running := rfl

theorem State.resume_of_running (h : s.status = .running) : s.resume = s := by
  cases s
  cases h
  rfl

/-! ### Saves -/

@[simp] theorem State.reportSave_pc : s.reportSave.pc = s.pc := rfl
@[simp] theorem State.reportSave_tos : s.reportSave.tos = s.tos := rfl
@[simp] theorem State.reportSave_sp : s.reportSave.sp = s.sp := rfl
@[simp] theorem State.reportSave_rp : s.reportSave.rp = s.rp := rfl
@[simp] theorem State.reportSave_mem : s.reportSave.mem = s.mem := rfl
@[simp] theorem State.reportSave_input : s.reportSave.input = s.input := rfl
@[simp] theorem State.reportSave_output : s.reportSave.output = s.output := rfl
@[simp] theorem State.reportSave_blockFile : s.reportSave.blockFile = s.blockFile := rfl
@[simp] theorem State.reportSave_status : s.reportSave.status = s.status := rfl
@[simp] theorem State.reportSave_saves : s.reportSave.saves = s.saves + 1 := rfl
@[simp] theorem State.reportSave_diagnostics : s.reportSave.diagnostics =
    (if Config.saveSucceeds s.saves then s.diagnostics else s.diagnostics + 1) := rfl

section
variable (n : Nat)
@[simp] theorem State.save_pc : (s.save n).pc = s.pc := rfl
@[simp] theorem State.save_tos : (s.save n).tos = s.tos := rfl
@[simp] theorem State.save_sp : (s.save n).sp = s.sp := rfl
@[simp] theorem State.save_rp : (s.save n).rp = s.rp := rfl
@[simp] theorem State.save_mem : (s.save n).mem = s.mem := rfl
@[simp] theorem State.save_input : (s.save n).input = s.input := rfl
@[simp] theorem State.save_output : (s.save n).output = s.output := rfl
theorem State.sinkAfterSave_eq : s.sinkAfterSave n =
    if Config.saveSucceeds s.saves then some (serialize n s.mem) else Config.failedSaveFile s.saves := rfl
@[simp] theorem State.save_blockFile : (s.save n).blockFile =
    (if Config.saveSucceeds s.saves then some (serialize n s.mem)
      else Config.failedSaveFile s.saves) := rfl
@[simp] theorem State.save_saves : (s.save n).saves = s.saves + 1 := rfl
@[simp] theorem State.save_diagnostics : (s.save n).diagnostics =
    (if Config.saveSucceeds s.saves then s.diagnostics else s.diagnostics + 1) := rfl
@[simp] theorem State.save_status : (s.save n).status = s.status := rfl
end

/-! ### Comparisons -/

theorem mask_decide (p : Prop) [Decidable p] : mask (decide p) = if p then 0xFFFF#16 else 0#16 := by
  unfold mask
  split <;> simp_all

theorem eqMask_eq (n t : Word) : eqMask n t = if t = n then 0xFFFF#16 else 0#16 := by
  unfold eqMask mask
  split <;> simp_all

theorem zeroMask_eq (t : Word) : zeroMask t = if t = 0 then 0xFFFF#16 else 0#16 := by
  unfold zeroMask mask
  split <;> simp_all

theorem ltMask_eq (n t : Word) : ltMask n t = if n.toInt < t.toInt then 0xFFFF#16 else 0#16 :=
  mask_decide _

theorem ultMask_eq (n t : Word) : ultMask n t = if n.toNat < t.toNat then 0xFFFF#16 else 0#16 :=
  mask_decide _

end Sys2Proof.Machine
end

