-- ==== Sys2Proof/Laws/AluSteps.lean ====
section
/-! SUPPORT. What the common ALU sequence does, step by step and as a whole (R171 to R178). -/

namespace Sys2Proof.Machine

variable (s : State) (f : AluFields)

/-! ### Deltas -/

theorem deltaAddend_zero : deltaAddend .zero = 0x0000 := rfl
theorem deltaAddend_plusOne : deltaAddend .plusOne = 0x0001 := rfl
theorem deltaAddend_minusTwo : deltaAddend .minusTwo = 0xFFFE := rfl
theorem deltaAddend_minusOne : deltaAddend .minusOne = 0xFFFF := rfl

@[simp] theorem add_deltaAddend_zero (w : Word) : w + deltaAddend .zero = w := by
  simp [deltaAddend_zero]
@[simp] theorem add_deltaAddend_plusOne (w : Word) : w + deltaAddend .plusOne = w + 1 := rfl
@[simp] theorem add_deltaAddend_minusTwo (w : Word) : w + deltaAddend .minusTwo = w - 2 := by
  rw [BitVec.sub_eq_add_neg]
  rfl
@[simp] theorem add_deltaAddend_minusOne (w : Word) : w + deltaAddend .minusOne = w - 1 := by
  rw [BitVec.sub_eq_add_neg]
  rfl

/-! ### Steps b to d write memory alone -/

theorem State.stepB_setMem (top : Word) :
    s.stepB f top = s.setMem (if f.t2r then s.mem.writeCell (idx s.rp) top else s.mem) := by
  unfold State.stepB
  split <;> rfl

theorem State.stepC_setMem (top : Word) :
    s.stepC f top = s.setMem (if f.t2n then s.mem.writeCell (idx s.sp) top else s.mem) := by
  unfold State.stepC
  split <;> rfl

theorem State.stepD_setMem (top next : Word) :
    s.stepD f top next = s.setMem (if f.n2a then s.mem.writeCell (idx (b2w top)) next else s.mem) := by
  unfold State.stepD
  split <;> rfl

theorem State.stepF_setPc :
    s.stepF f = s.setPc (if f.r2p then b2w (s.readCell s.rp) else s.pc + 1) := by
  unfold State.stepF
  split <;> rfl

/-- The image after steps a to d. -/
def State.aluMem : Memory :=
  let m1 := if f.t2r then s.mem.writeCell (idx (s.rp + deltaAddend f.rd)) s.tos else s.mem
  let m2 := if f.t2n then m1.writeCell (idx (s.sp + deltaAddend f.dd)) s.tos else m1
  if f.n2a then m2.writeCell (idx (b2w s.tos)) s.nos else m2

/-- Everything steps a to f do, as one update of each field they write. -/
theorem State.aluSteps_eq (newTop : Word) :
    s.aluSteps f newTop =
      ((((s.setSp (s.sp + deltaAddend f.dd)).setRp (s.rp + deltaAddend f.rd)).setMem (s.aluMem f)).setTos
        newTop).setPc
          (if f.r2p then b2w ((s.aluMem f).readCell (idx (s.rp + deltaAddend f.rd))) else s.pc + 1) := by
  simp only [State.aluSteps, State.stepF_setPc, State.stepE, State.stepD_setMem, State.stepC_setMem,
    State.stepB_setMem, State.stepA, State.setRp_rp, State.setRp_sp, State.setSp_sp,
    State.setMem_sp, State.setMem_mem, State.setRp_mem, State.setSp_mem]
  rfl

@[simp] theorem State.aluSteps_tos (v : Word) : (s.aluSteps f v).tos = v := by simp [State.aluSteps_eq]
@[simp] theorem State.aluSteps_sp (v : Word) : (s.aluSteps f v).sp = s.sp + deltaAddend f.dd := by
  simp [State.aluSteps_eq]
@[simp] theorem State.aluSteps_rp (v : Word) : (s.aluSteps f v).rp = s.rp + deltaAddend f.rd := by
  simp [State.aluSteps_eq]
@[simp] theorem State.aluSteps_mem (v : Word) : (s.aluSteps f v).mem = s.aluMem f := by
  simp [State.aluSteps_eq]
@[simp] theorem State.aluSteps_pc (v : Word) : (s.aluSteps f v).pc =
    if f.r2p then b2w ((s.aluMem f).readCell (idx (s.rp + deltaAddend f.rd))) else s.pc + 1 := by
  simp [State.aluSteps_eq]
@[simp] theorem State.aluSteps_input (v : Word) : (s.aluSteps f v).input = s.input := by
  simp [State.aluSteps_eq]
@[simp] theorem State.aluSteps_output (v : Word) : (s.aluSteps f v).output = s.output := by
  simp [State.aluSteps_eq]
@[simp] theorem State.aluSteps_blockFile (v : Word) : (s.aluSteps f v).blockFile = s.blockFile := by
  simp [State.aluSteps_eq]
@[simp] theorem State.aluSteps_saves (v : Word) : (s.aluSteps f v).saves = s.saves := by
  simp [State.aluSteps_eq]
@[simp] theorem State.aluSteps_diagnostics (v : Word) : (s.aluSteps f v).diagnostics = s.diagnostics := by
  simp [State.aluSteps_eq]
@[simp] theorem State.aluSteps_status (v : Word) : (s.aluSteps f v).status = s.status := by
  simp [State.aluSteps_eq]

/-- Every byte after steps a to d: of the stores that meet, the later one wins (R178). -/
theorem State.aluMem_readByte (a : Nat) : (s.aluMem f).readByte a =
    if f.n2a = true ∧ a / 2 = idx (b2w s.tos) then byteOf s.nos a
    else if f.t2n = true ∧ a / 2 = idx (s.sp + deltaAddend f.dd) then byteOf s.tos a
    else if f.t2r = true ∧ a / 2 = idx (s.rp + deltaAddend f.rd) then byteOf s.tos a
    else s.mem.readByte a := by
  obtain ⟨t2n, t2r, n2a, r2p, rd, dd⟩ := f
  cases t2n <;> cases t2r <;> cases n2a <;> simp [State.aluMem, Memory.readByte_writeCell, byteOf]

/-- Steps a to d keep the canonical form. -/
theorem State.aluMem_wf (h : s.mem.wf = true) : (s.aluMem f).wf = true := by
  obtain ⟨t2n, t2r, n2a, r2p, rd, dd⟩ := f
  cases t2n <;> cases t2r <;> cases n2a <;>
    simp only [State.aluMem, if_true, Bool.false_eq_true, if_false] <;>
    repeat' first | exact h | refine Memory.writeCell_wf ?_ (idx_lt _) _

/-- The whole sequence (R171 to R177). -/
theorem State.aluSteps_effect (v : Word) : AluEffect f v s (s.aluSteps f v) where
  tos := by simp
  sp := by simp
  rp := by simp
  pc := by simp [State.readCell]
  mem := fun a => by rw [State.aluSteps_mem, State.aluMem_readByte]

theorem State.aluSteps_environment (v : Word) : SameEnvironment s (s.aluSteps f v) where
  input := by simp
  output := by simp
  blockFile := by simp
  saves := by simp
  diagnostics := by simp
  status := by simp

/-- The effect is that of the registers and the image alone: an effect on the devices before the steps
does not show in it. -/
theorem AluEffect.of_sameCore {f : AluFields} {v : Word} {s s' t : State} (h : SameCore s s')
    (e : AluEffect f v s' t) : AluEffect f v s t := by
  obtain ⟨pc, tos, sp, rp, mem⟩ := s
  obtain ⟨pc', tos', sp', rp', mem'⟩ := s'
  obtain ⟨h1, h2, h3, h4, h5⟩ := h
  cases h1
  cases h2
  cases h3
  cases h4
  cases h5
  exact ⟨e.tos, e.sp, e.rp, e.pc, e.mem⟩

/-- A cell after the sequence: what the last of the stores that meet in it wrote, or what it held. -/
theorem AluEffect.readCell {f : AluFields} {v : Word} {s t : State} (e : AluEffect f v s t) (w : Word) :
    t.readCell w =
      if f.n2a = true ∧ idx w = idx (b2w s.tos) then s.nos
      else if f.t2n = true ∧ idx w = idx (s.sp + deltaAddend f.dd) then s.tos
      else if f.t2r = true ∧ idx w = idx (s.rp + deltaAddend f.rd) then s.tos
      else s.readCell w := by
  simp only [State.readCell, Memory.readCell, e.mem, show 2 * idx w / 2 = idx w by omega,
    show (2 * idx w + 1) / 2 = idx w by omega, byteOf, show 2 * idx w % 2 = 0 by omega,
    show (2 * idx w + 1) % 2 = 1 by omega]
  split
  · simp
  split
  · simp
  split
  · simp
  rfl

theorem State.reportSave_sameCore : SameCore s s.reportSave := ⟨rfl, rfl, rfl, rfl, rfl⟩
theorem State.save_sameCore (n : Nat) : SameCore s (s.save n) := ⟨rfl, rfl, rfl, rfl, rfl⟩
theorem State.outWrite_sameCore (b : Byte) : SameCore s (s.outWrite b) := ⟨rfl, rfl, rfl, rfl, rfl⟩
theorem State.consumeByte_sameCore : SameCore s s.consumeByte := ⟨rfl, rfl, rfl, rfl, rfl⟩
theorem State.resume_sameCore : SameCore s s.resume := ⟨rfl, rfl, rfl, rfl, rfl⟩

theorem SameCore.symm {s t : State} (h : SameCore s t) : SameCore t s :=
  ⟨h.pc.symm, h.tos.symm, h.sp.symm, h.rp.symm, h.mem.symm⟩

theorem SameCore.trans {s t u : State} (h : SameCore s t) (h' : SameCore t u) : SameCore s u :=
  ⟨h'.pc.trans h.pc, h'.tos.trans h.tos, h'.sp.trans h.sp, h'.rp.trans h.rp, h'.mem.trans h.mem⟩

theorem SameCore.readCell {s t : State} (h : SameCore s t) (w : Word) : t.readCell w = s.readCell w :=
  State.readCell_congr h.mem w

theorem SameCore.aluMem {s t : State} (h : SameCore s t) (f : AluFields) : t.aluMem f = s.aluMem f := by
  simp only [State.aluMem, State.nos, h.tos, h.sp, h.rp, h.mem, h.readCell]

/-- Steps a to f see the registers and the image alone. -/
theorem SameCore.aluSteps {s t : State} (h : SameCore s t) (f : AluFields) (v : Word) :
    SameCore (s.aluSteps f v) (t.aluSteps f v) := by
  constructor <;> simp [h.pc, h.sp, h.rp, h.aluMem f]

end Sys2Proof.Machine
end

