-- ==== Sys2Proof/Laws/Decode.lean ====
section
/-! SUPPORT. The small lemmas of the decoder and the encoder. -/

namespace Sys2Proof

@[simp] theorem Delta.ofBits_bits (d : Delta) : Delta.ofBits d.bits = d := by cases d <;> rfl

@[simp] theorem Delta.bits_ofBits (b : BitVec 2) : (Delta.ofBits b).bits = b := by
  revert b
  decide

/-- The opcode number and the fields that an ALU instruction is made from. -/
theorem aluInstr_aluForm? (op : Nat) (h : op < 32) (f : AluFields) :
    (aluInstr op f).aluForm? = some (op, f) := by
  interval_cases op <;> rfl

/-- An instruction with an opcode is the one made from that opcode and its fields. -/
theorem aluInstr_of_aluForm? {i : Instr} {op : Nat} {f : AluFields} (h : i.aluForm? = some (op, f)) :
    aluInstr op f = i ∧ op < 32 := by
  cases i <;> simp only [Instr.aluForm?, Option.some.injEq, Prod.mk.injEq, reduceCtorEq] at h
  all_goals
    obtain ⟨rfl, rfl⟩ := h
    exact ⟨rfl, by decide⟩

/-- The encoding of an ALU instruction is the ALU word of its opcode and its fields. -/
theorem encodeWith_aluInstr (L : AluLayout) (op : Nat) (h : op < 32) (f : AluFields) :
    encodeWith L (aluInstr op f) = encodeAlu L (BitVec.ofNat 5 op) f := by
  interval_cases op <;> rfl

theorem getLsbD_flagBit (b : Bool) (n k : Nat) :
    (flagBit b n).getLsbD k = (b && decide (k < 16) && decide (k = n)) := by
  cases b
  · simp [flagBit]
  · rw [Bool.eq_iff_iff]
    simp [flagBit, BitVec.getLsbD_one]
    omega

theorem getElem_flagBit (b : Bool) (n k : Nat) (h : k < 16) : (flagBit b n)[k] = (b && decide (k = n)) := by
  rw [← BitVec.getLsbD_eq_getElem, getLsbD_flagBit]
  simp [h]

theorem getLsbD_field {n : Nat} (v : BitVec n) (p k : Nat) (hk : k < 16) :
    (v.setWidth 16 <<< p).getLsbD k = (decide (p ≤ k) && v.getLsbD (k - p)) := by
  rw [Bool.eq_iff_iff]
  simp [hk]

/-- Every bit of an ALU word: the class, or the bit of the field that lies there (R104). -/
theorem getLsbD_encodeAlu (L : AluLayout) (op : BitVec 5) (f : AluFields) (k : Nat) (hk : k < 16) :
    (encodeAlu L op f).getLsbD k =
      ((0x6000#16).getLsbD k || (decide (L.op ≤ k) && op.getLsbD (k - L.op)) ||
        (f.t2n && decide (k = L.t2n)) || (f.t2r && decide (k = L.t2r)) ||
        (f.n2a && decide (k = L.n2a)) || (f.r2p && decide (k = L.r2p)) ||
        (decide (L.rd ≤ k) && f.rd.bits.getLsbD (k - L.rd)) ||
        (decide (L.dd ≤ k) && f.dd.bits.getLsbD (k - L.dd))) := by
  simp only [encodeAlu, BitVec.getLsbD_or, getLsbD_field op _ _ hk,
    getLsbD_field f.rd.bits _ _ hk, getLsbD_field f.dd.bits _ _ hk,
    getLsbD_flagBit, hk, decide_true, Bool.and_true]

theorem AsmLine.assemble_eq (l : AsmLine) : l.assemble = l.expand.map (·.map encode) := rfl

/-- The fields of an ALU word with their widths as numerals (R104). -/
theorem AluLayout.spans_eq (L : AluLayout) : L.spans =
    [(L.op, 5), (L.t2n, 1), (L.t2r, 1), (L.n2a, 1), (L.r2p, 1), (L.rd, 2), (L.dd, 2)] := rfl

/-! ### The classes, one lemma each (R101) -/

/-- A class bit of a word is that of its class. -/
theorem getLsbD_of_class {w c : Word} (h : w &&& 0xE000#16 = c) (k : Nat)
    (hk : (0xE000#16).getLsbD k = true) : w.getLsbD k = c.getLsbD k := by
  rw [← h, BitVec.getLsbD_and, hk, Bool.and_true]

theorem decodeWith_lit (L : AluLayout) {w : Word} (h : w.getLsbD 15 = true) :
    decodeWith L w = .lit (w.extractLsb' 0 15) := if_pos h

theorem decodeWith_alu (L : AluLayout) {w : Word} (h : w &&& 0xE000#16 = 0x6000#16) :
    decodeWith L w = aluInstr (w.extractLsb' L.op 5).toNat (aluFieldsOf L w) := by
  have h15 : ¬ w.getLsbD 15 = true := by
    rw [getLsbD_of_class h 15 rfl]
    decide
  rw [decodeWith, if_neg h15, if_pos h]

theorem decodeWith_call (L : AluLayout) {w : Word} (h : w &&& 0xE000#16 = 0x4000#16) :
    decodeWith L w = .call (w.extractLsb' 0 13) := by
  have h15 : ¬ w.getLsbD 15 = true := by
    rw [getLsbD_of_class h 15 rfl]
    decide
  have h14 : w.getLsbD 14 = true := getLsbD_of_class h 14 rfl
  rw [decodeWith, if_neg h15, if_neg (by rw [h]; decide), if_pos h14]

theorem decodeWith_zbranch (L : AluLayout) {w : Word} (h : w &&& 0xE000#16 = 0x2000#16) :
    decodeWith L w = .zbranch (w.extractLsb' 0 13) := by
  have h15 : ¬ w.getLsbD 15 = true := by
    rw [getLsbD_of_class h 15 rfl]
    decide
  have h14 : ¬ w.getLsbD 14 = true := by
    rw [getLsbD_of_class h 14 rfl]
    decide
  have h13 : w.getLsbD 13 = true := getLsbD_of_class h 13 rfl
  rw [decodeWith, if_neg h15, if_neg (by rw [h]; decide), if_neg h14, if_pos h13]

theorem decodeWith_branch (L : AluLayout) {w : Word} (h : w &&& 0xE000#16 = 0#16) :
    decodeWith L w = .branch (w.extractLsb' 0 13) := by
  have h15 : ¬ w.getLsbD 15 = true := by
    rw [getLsbD_of_class h 15 rfl]
    decide
  have h14 : ¬ w.getLsbD 14 = true := by
    rw [getLsbD_of_class h 14 rfl]
    decide
  have h13 : ¬ w.getLsbD 13 = true := by
    rw [getLsbD_of_class h 13 rfl]
    decide
  rw [decodeWith, if_neg h15, if_neg (by rw [h]; decide), if_neg h14, if_neg h13]

/-- Every word falls under one of the five. -/
theorem word_class (w : Word) : w.getLsbD 15 = true ∨ w &&& 0xE000#16 = 0x6000#16 ∨
    w &&& 0xE000#16 = 0x4000#16 ∨ w &&& 0xE000#16 = 0x2000#16 ∨ w &&& 0xE000#16 = 0#16 := by
  have key : ∀ c : Word, (∀ k < 16, (w &&& 0xE000#16).getLsbD k = c.getLsbD k) → w &&& 0xE000#16 = c :=
    fun c h => BitVec.eq_of_getLsbD_eq h
  cases h15 : w.getLsbD 15
  · right
    cases h14 : w.getLsbD 14 <;> cases h13 : w.getLsbD 13
    · exact .inr (.inr (.inr (key _ (fun k hk => by interval_cases k <;> simp_all))))
    · exact .inr (.inr (.inl (key _ (fun k hk => by interval_cases k <;> simp_all))))
    · exact .inr (.inl (key _ (fun k hk => by interval_cases k <;> simp_all)))
    · exact .inl (key _ (fun k hk => by interval_cases k <;> simp_all))
  · exact .inl rfl

end Sys2Proof
end

