-- ==== Sys2Proof/Laws/Config.lean ====
section
/-! SUPPORT. Every numeral that a type or a definition carries is the parameter record's (R7). -/

namespace Sys2Proof

/-! ### Widths -/

theorem word_eq_width : Word = BitVec Config.params.width := rfl

/-- A literal's payload has the record's width (R7, R102). -/
theorem decodeWith_literalBits (L : AluLayout) {w : Word} (h : w.getLsbD (Config.params.width - 1) = true) :
    decodeWith L w = .lit (w.extractLsb' 0 Config.params.literalBits) := decodeWith_lit L h

/-- An address field has the record's width (R7, R103). -/
theorem decodeWith_addressBits (L : AluLayout) {w : Word} (h : w &&& 0xE000#16 = 0x4000#16) :
    decodeWith L w = .call (w.extractLsb' 0 Config.params.addressBits) := decodeWith_call L h

theorem codeTop_eq_addressBits : Config.params.codeTop = 2 ^ Config.params.addressBits := rfl

/-- An opcode has the record's width (R7, R104). -/
theorem aluForm?_lt_opcodeBits {i : Instr} {op : Nat} {f : AluFields} (h : i.aluForm? = some (op, f)) :
    op < 2 ^ Config.params.opcodeBits := (aluInstr_of_aluForm? h).2

/-- The instructions defined among the ALU words are as many opcodes as the record says (R7, R110). -/
theorem wellFormed_iff_definedOps {i : Instr} {op : Nat} {f : AluFields} (h : i.aluForm? = some (op, f)) :
    i.wellFormed = true ↔ op < Config.params.definedOps := by
  simp only [Instr.wellFormed, h, decide_eq_true_eq]

/-- A layout has as many delta fields of the record's width as the record says (R7, R104). -/
theorem spans_deltaFields (L : AluLayout) :
    (L.spans.filter (fun p => p.2 = Config.params.deltaBits)).length = Config.params.deltaFields := by
  simp [AluLayout.spans]

/-- The delta table has an entry for each value of a delta field (R7, R105). -/
theorem deltaTable_length : Config.params.deltaTable.length = 2 ^ Config.params.deltaBits := rfl

/-! ### Moduli -/

theorem add_toNat_registerModulus (a b : Word) :
    (a + b).toNat = (a.toNat + b.toNat) % Config.params.registerModulus := BitVec.toNat_add a b

theorem registerModulus_eq_width : Config.params.registerModulus = 2 ^ Config.params.width := rfl
theorem indexModulus_eq_core : Config.params.indexModulus = Config.params.core := rfl

/-! ### Block files -/

theorem loadWords_eq_core : Config.params.loadWords = Config.params.core := rfl
theorem saveWords_eq_core : Config.params.saveWords = Config.params.core := rfl
@[simp] theorem fileBytes_eq (w : Word) : fileBytes w = [lowByte w, highByte w] := rfl
@[simp] theorem fileWord_eq (lo hi : Byte) : fileWord lo hi = wordOfBytes lo hi := rfl

end Sys2Proof
end

