-- ==== Sys2Proof/Laws/Exec.lean ====
section
/-! SUPPORT. What each instruction's meaning is, as one equation each, and the cases of `exec` as a whole. -/

namespace Sys2Proof.Machine

variable (f : AluFields) (s : State)

/-! ### One equation per instruction -/

theorem exec_lit (n : BitVec 15) :
    exec (.lit n) s = .next (((s.pushData s.tos).setTos (litValue n)).advance) := rfl
theorem exec_call (a : BitVec 13) :
    exec (.call a) s = .next ((s.pushReturn (w2b (s.pc + 1))).setPc (targetOf a)) := rfl
theorem exec_zbranch (a : BitVec 13) :
    exec (.zbranch a) s = .next ((if s.tos = 0 then s.setPc (targetOf a) else s.advance).popData) := rfl
theorem exec_branch (a : BitVec 13) : exec (.branch a) s = .next (s.setPc (targetOf a)) := rfl
theorem exec_aluT : exec (.aluT f) s = .next (s.aluSteps f s.tos) := rfl
theorem exec_aluN : exec (.aluN f) s = .next (s.aluSteps f s.nos) := rfl
theorem exec_aluAdd : exec (.aluAdd f) s = .next (s.aluSteps f (s.tos + s.nos)) := rfl
theorem exec_aluAnd : exec (.aluAnd f) s = .next (s.aluSteps f (s.tos &&& s.nos)) := rfl
theorem exec_aluOr : exec (.aluOr f) s = .next (s.aluSteps f (s.tos ||| s.nos)) := rfl
theorem exec_aluXor : exec (.aluXor f) s = .next (s.aluSteps f (s.tos ^^^ s.nos)) := rfl
theorem exec_aluNot : exec (.aluNot f) s = .next (s.aluSteps f (~~~s.tos)) := rfl
theorem exec_aluEq : exec (.aluEq f) s = .next (s.aluSteps f (eqMask s.nos s.tos)) := rfl
theorem exec_aluLt : exec (.aluLt f) s = .next (s.aluSteps f (ltMask s.nos s.tos)) := rfl
theorem exec_aluShr : exec (.aluShr f) s = .next (s.aluSteps f (s.nos >>> s.tos.toNat)) := rfl
theorem exec_aluDec : exec (.aluDec f) s = .next (s.aluSteps f (s.tos - 1)) := rfl
theorem exec_aluR : exec (.aluR f) s = .next (s.aluSteps f s.rtop) := rfl
theorem exec_aluLoad : exec (.aluLoad f) s = .next (s.aluSteps f s.atTos) := rfl
theorem exec_aluShl : exec (.aluShl f) s = .next (s.aluSteps f (s.nos <<< s.tos.toNat)) := rfl
theorem exec_aluDepth : exec (.aluDepth f) s = .next (s.aluSteps f s.depth) := rfl
theorem exec_aluULt : exec (.aluULt f) s = .next (s.aluSteps f (ultMask s.nos s.tos)) := rfl
theorem exec_aluRDepth : exec (.aluRDepth f) s = .next (s.aluSteps f s.rdepth) := rfl
theorem exec_aluZeroEq : exec (.aluZeroEq f) s = .next (s.aluSteps f (zeroMask s.tos)) := rfl
theorem exec_aluSave : exec (.aluSave f) s = .next ((s.save 32768).aluSteps f s.tos) := rfl
theorem exec_aluTx : exec (.aluTx f) s = .next ((s.outWrite (lowByte s.tos)).aluSteps f s.nos) := rfl
theorem exec_aluRx_byte {b : Byte} (h : s.input.answer = .byte b) :
    exec (.aluRx f) s = .next (s.consumeByte.aluSteps f (byteValue b)) := by
  simp only [exec, execAluRx, h]
theorem exec_aluRx_eof (h : s.input.answer = .eof) : exec (.aluRx f) s = .next s.cleanStop := by
  simp only [exec, execAluRx, h]
theorem exec_aluRx_pending (h : s.input.answer = .pending) : exec (.aluRx f) s = .next s.wait := by
  simp only [exec, execAluRx, h]
theorem exec_aluBye : exec (.aluBye f) s = .next (s.halt s.tos) := rfl
theorem exec_reserved22 : exec (.reserved22 f) s = raiseReserved s := rfl
theorem exec_reserved23 : exec (.reserved23 f) s = raiseReserved s := rfl
theorem exec_reserved24 : exec (.reserved24 f) s = raiseReserved s := rfl
theorem exec_reserved25 : exec (.reserved25 f) s = raiseReserved s := rfl
theorem exec_reserved26 : exec (.reserved26 f) s = raiseReserved s := rfl
theorem exec_reserved27 : exec (.reserved27 f) s = raiseReserved s := rfl
theorem exec_reserved28 : exec (.reserved28 f) s = raiseReserved s := rfl
theorem exec_reserved29 : exec (.reserved29 f) s = raiseReserved s := rfl
theorem exec_reserved30 : exec (.reserved30 f) s = raiseReserved s := rfl
theorem exec_reserved31 : exec (.reserved31 f) s = raiseReserved s := rfl

/-! ### The cases of `exec` -/

/-- An opcode that runs to its end has a new top, and ends in steps a to f with it, on a state whose
registers, image and status are those of the state before it. -/
theorem exec_newTop {i : Instr} {op : Nat} {f : AluFields} (h : i.aluForm? = some (op, f))
    (hop : AluRuns op s) : ∃ s' v, newTop op s = some v ∧ exec i s = .next (s'.aluSteps f v) ∧
      SameCore s s' ∧ s'.status = s.status ∧ (op ≠ 20 → s'.input = s.input) := by
  obtain ⟨rfl, -⟩ := aluInstr_of_aluForm? h
  have hc : SameCore s s := ⟨rfl, rfl, rfl, rfl, rfl⟩
  rcases hop with hop | ⟨rfl, hpos⟩
  · by_cases h18 : op = 18
    · subst h18
      exact ⟨s.save 32768, _, rfl, exec_aluSave f s, s.save_sameCore 32768, rfl, fun _ => rfl⟩
    by_cases h19 : op = 19
    · subst h19
      exact ⟨s.outWrite (lowByte s.tos), _, rfl, exec_aluTx f s, s.outWrite_sameCore _, rfl, fun _ => rfl⟩
    have h17 : op < 18 := by omega
    interval_cases op <;> exact ⟨s, _, rfl, rfl, hc, rfl, fun _ => rfl⟩
  · have hb := List.getElem?_eq_getElem hpos
    exact ⟨s.consumeByte, _, by simp only [newTop, hb]; rfl,
      exec_aluRx_byte f s (InStream.answer_eq_byte.mpr hb), s.consumeByte_sameCore, rfl, fun h => absurd rfl h⟩

/-- Every way an instruction ends: a halt, a clean stop, a wait, the fault of a reserved opcode, or a next
state of the same status. -/
theorem exec_cases (i : Instr) (s : State) :
    (∃ f, i = .aluBye f ∧ exec i s = .next (s.halt s.tos)) ∨
    (∃ f, i = .aluRx f ∧ s.input.answer = .eof ∧ exec i s = .next s.cleanStop) ∨
    (∃ f, i = .aluRx f ∧ s.input.answer = .pending ∧ exec i s = .next s.wait) ∨
    (i.wellFormed = false ∧ exec i s = .fault (.reservedAluOp s.fetch)) ∨
    (∃ t, i.wellFormed = true ∧ exec i s = .next t ∧ t.status = s.status) := by
  cases i with
  | aluBye f => exact .inl ⟨f, rfl, rfl⟩
  | aluRx f =>
    cases h : s.input.answer with
    | eof => exact .inr (.inl ⟨f, rfl, rfl, exec_aluRx_eof f s h⟩)
    | pending => exact .inr (.inr (.inl ⟨f, rfl, rfl, exec_aluRx_pending f s h⟩))
    | byte b => exact .inr (.inr (.inr (.inr ⟨_, rfl, exec_aluRx_byte f s h, by simp⟩)))
  | lit n => exact .inr (.inr (.inr (.inr ⟨_, rfl, exec_lit s n, rfl⟩)))
  | call a => exact .inr (.inr (.inr (.inr ⟨_, rfl, exec_call s a, rfl⟩)))
  | zbranch a => exact .inr (.inr (.inr (.inr ⟨_, rfl, exec_zbranch s a, by split <;> rfl⟩)))
  | branch a => exact .inr (.inr (.inr (.inr ⟨_, rfl, exec_branch s a, rfl⟩)))
  | aluSave f => exact .inr (.inr (.inr (.inr ⟨_, rfl, exec_aluSave f s, by simp⟩)))
  | aluTx f => exact .inr (.inr (.inr (.inr ⟨_, rfl, exec_aluTx f s, by simp⟩)))
  | reserved22 f => exact .inr (.inr (.inr (.inl ⟨rfl, rfl⟩)))
  | reserved23 f => exact .inr (.inr (.inr (.inl ⟨rfl, rfl⟩)))
  | reserved24 f => exact .inr (.inr (.inr (.inl ⟨rfl, rfl⟩)))
  | reserved25 f => exact .inr (.inr (.inr (.inl ⟨rfl, rfl⟩)))
  | reserved26 f => exact .inr (.inr (.inr (.inl ⟨rfl, rfl⟩)))
  | reserved27 f => exact .inr (.inr (.inr (.inl ⟨rfl, rfl⟩)))
  | reserved28 f => exact .inr (.inr (.inr (.inl ⟨rfl, rfl⟩)))
  | reserved29 f => exact .inr (.inr (.inr (.inl ⟨rfl, rfl⟩)))
  | reserved30 f => exact .inr (.inr (.inr (.inl ⟨rfl, rfl⟩)))
  | reserved31 f => exact .inr (.inr (.inr (.inl ⟨rfl, rfl⟩)))
  | aluT f => exact .inr (.inr (.inr (.inr ⟨_, rfl, exec_aluT f s, by simp⟩)))
  | aluN f => exact .inr (.inr (.inr (.inr ⟨_, rfl, exec_aluN f s, by simp⟩)))
  | aluAdd f => exact .inr (.inr (.inr (.inr ⟨_, rfl, exec_aluAdd f s, by simp⟩)))
  | aluAnd f => exact .inr (.inr (.inr (.inr ⟨_, rfl, exec_aluAnd f s, by simp⟩)))
  | aluOr f => exact .inr (.inr (.inr (.inr ⟨_, rfl, exec_aluOr f s, by simp⟩)))
  | aluXor f => exact .inr (.inr (.inr (.inr ⟨_, rfl, exec_aluXor f s, by simp⟩)))
  | aluNot f => exact .inr (.inr (.inr (.inr ⟨_, rfl, exec_aluNot f s, by simp⟩)))
  | aluEq f => exact .inr (.inr (.inr (.inr ⟨_, rfl, exec_aluEq f s, by simp⟩)))
  | aluLt f => exact .inr (.inr (.inr (.inr ⟨_, rfl, exec_aluLt f s, by simp⟩)))
  | aluShr f => exact .inr (.inr (.inr (.inr ⟨_, rfl, exec_aluShr f s, by simp⟩)))
  | aluDec f => exact .inr (.inr (.inr (.inr ⟨_, rfl, exec_aluDec f s, by simp⟩)))
  | aluR f => exact .inr (.inr (.inr (.inr ⟨_, rfl, exec_aluR f s, by simp⟩)))
  | aluLoad f => exact .inr (.inr (.inr (.inr ⟨_, rfl, exec_aluLoad f s, by simp⟩)))
  | aluShl f => exact .inr (.inr (.inr (.inr ⟨_, rfl, exec_aluShl f s, by simp⟩)))
  | aluDepth f => exact .inr (.inr (.inr (.inr ⟨_, rfl, exec_aluDepth f s, by simp⟩)))
  | aluULt f => exact .inr (.inr (.inr (.inr ⟨_, rfl, exec_aluULt f s, by simp⟩)))
  | aluRDepth f => exact .inr (.inr (.inr (.inr ⟨_, rfl, exec_aluRDepth f s, by simp⟩)))
  | aluZeroEq f => exact .inr (.inr (.inr (.inr ⟨_, rfl, exec_aluZeroEq f s, by simp⟩)))

/-- Everything a next state can be: how each instruction changes the state when it does not fault. -/
theorem exec_next {i : Instr} {s t : State} (h : exec i s = .next t) :
    (∃ n, i = .lit n ∧ t = ((s.pushData s.tos).setTos (litValue n)).advance) ∨
    (∃ a, i = .call a ∧ t = (s.pushReturn (w2b (s.pc + 1))).setPc (targetOf a)) ∨
    (∃ a, i = .zbranch a ∧ t = (if s.tos = 0 then s.setPc (targetOf a) else s.advance).popData) ∨
    (∃ a, i = .branch a ∧ t = s.setPc (targetOf a)) ∨
    (∃ f op v, i.aluForm? = some (op, f) ∧ op < 18 ∧ t = s.aluSteps f v) ∨
    (∃ f, i = .aluSave f ∧ t = (s.save 32768).aluSteps f s.tos) ∨
    (∃ f, i = .aluTx f ∧ t = (s.outWrite (lowByte s.tos)).aluSteps f s.nos) ∨
    (∃ f b, i = .aluRx f ∧ s.input.answer = .byte b ∧ t = s.consumeByte.aluSteps f (byteValue b)) ∨
    (∃ f, i = .aluRx f ∧ s.input.answer = .eof ∧ t = s.cleanStop) ∨
    (∃ f, i = .aluRx f ∧ s.input.answer = .pending ∧ t = s.wait) ∨
    (∃ f, i = .aluBye f ∧ t = s.halt s.tos) := by
  cases i with
  | lit n =>
    cases h
    exact .inl ⟨_, rfl, rfl⟩
  | call a =>
    cases h
    exact .inr (.inl ⟨_, rfl, rfl⟩)
  | zbranch a =>
    cases h
    exact .inr (.inr (.inl ⟨_, rfl, rfl⟩))
  | branch a =>
    cases h
    exact .inr (.inr (.inr (.inl ⟨_, rfl, rfl⟩)))
  | aluSave f =>
    cases h
    exact .inr (.inr (.inr (.inr (.inr (.inl ⟨_, rfl, rfl⟩)))))
  | aluTx f =>
    cases h
    exact .inr (.inr (.inr (.inr (.inr (.inr (.inl ⟨_, rfl, rfl⟩))))))
  | aluBye f =>
    cases h
    exact .inr (.inr (.inr (.inr (.inr (.inr (.inr (.inr (.inr (.inr ⟨_, rfl, rfl⟩)))))))))
  | aluRx f =>
    cases ha : s.input.answer with
    | byte b =>
      rw [exec_aluRx_byte _ _ ha] at h
      cases h
      exact .inr (.inr (.inr (.inr (.inr (.inr (.inr (.inl ⟨_, _, rfl, rfl, rfl⟩)))))))
    | eof =>
      rw [exec_aluRx_eof _ _ ha] at h
      cases h
      exact .inr (.inr (.inr (.inr (.inr (.inr (.inr (.inr (.inl ⟨_, rfl, rfl, rfl⟩))))))))
    | pending =>
      rw [exec_aluRx_pending _ _ ha] at h
      cases h
      exact .inr (.inr (.inr (.inr (.inr (.inr (.inr (.inr (.inr (.inl ⟨_, rfl, rfl, rfl⟩)))))))))
  | reserved22 f => cases h
  | reserved23 f => cases h
  | reserved24 f => cases h
  | reserved25 f => cases h
  | reserved26 f => cases h
  | reserved27 f => cases h
  | reserved28 f => cases h
  | reserved29 f => cases h
  | reserved30 f => cases h
  | reserved31 f => cases h
  | _ f =>
    cases h
    exact .inr (.inr (.inr (.inr (.inl ⟨f, _, _, rfl, by decide, rfl⟩))))

end Sys2Proof.Machine
end

