-- ==== Sys2Proof/Laws/Image.lean ====
section
/-! SUPPORT. The serializer and the loader, cell by cell. -/

namespace Sys2Proof.Machine

theorem serializeFrom_succ (m : Memory) (n k : Nat) : serializeFrom m (n + 1) k =
    lowByte (m.readCell k) :: highByte (m.readCell k) :: serializeFrom m n (k + 1) := rfl

theorem serializeFrom_length (m : Memory) (n k : Nat) : (serializeFrom m n k).length = 2 * n := by
  induction n generalizing k with
  | zero => rfl
  | succ n ih =>
    simp only [serializeFrom_succ, List.length_cons, ih]
    omega

theorem loadCells_succ (n k : Nat) (lo hi : Byte) (rest : List Byte) (m : Memory) :
    loadCells (n + 1) k (lo :: hi :: rest) m = loadCells n (k + 1) rest (m.writeCell k (wordOfBytes lo hi)) :=
  rfl

@[simp] theorem loadCells_zero (k : Nat) (file : List Byte) (m : Memory) : loadCells 0 k file m = some m := rfl

/-- A load of cells keeps the canonical form. -/
theorem loadCells_wf {n k : Nat} {file : List Byte} {m m' : Memory} (h : m.wf = true) (hk : k + n ≤ 32768)
    (hl : loadCells n k file m = some m') : m'.wf = true := by
  induction n generalizing k file m with
  | zero =>
    cases hl
    exact h
  | succ n ih =>
    match file, hl with
    | lo :: hi :: rest, hl =>
      rw [loadCells_succ] at hl
      exact ih (Memory.writeCell_wf h (by omega) _) (by omega) hl

end Sys2Proof.Machine
end

