-- ==== Sys2Proof/Laws/HostInterface.lean ====
section
/-! SUPPORT. What one iteration answers, and what each act of the host does, with a run in progress and
without one (R268, R285). -/

namespace Sys2Proof.Machine

variable {s t : State} (L : AluLayout)

/-! ### Whether a run is in progress -/

theorem State.canStep_iff : s.canStep = true ↔ s.status = .running ∨ s.status = .waiting := by
  unfold State.canStep
  cases s.status <;> simp

theorem State.canStep_eq_false_iff : s.canStep = false ↔ s.status ≠ .running ∧ s.status ≠ .waiting := by
  unfold State.canStep
  cases s.status <;> simp

/-! ### One iteration -/

theorem stepWith_of_canStep (h : s.canStep = true) : stepWith L s = exec (decodeWith L s.fetch) s.resume :=
  if_pos h

theorem stepWith_of_not_canStep (h : s.canStep = false) : stepWith L s = .fault .notRunning := by
  simp [stepWith, h]

/-- An iteration that answers a state ran the decoded instruction, in a run in progress. -/
theorem stepWith_next (h : stepWith L s = .next t) :
    s.canStep = true ∧ exec (decodeWith L s.fetch) s.resume = .next t := by
  cases hc : s.canStep
  · rw [stepWith_of_not_canStep L hc] at h
    cases h
  · exact ⟨rfl, stepWith_of_canStep L hc ▸ h⟩

theorem step_of_canStep (h : s.canStep = true) : step s = exec (decode s.fetch) s.resume :=
  stepWith_of_canStep _ h

theorem step_of_not_canStep (h : s.canStep = false) : step s = .fault .notRunning :=
  stepWith_of_not_canStep _ h

theorem step_next (h : step s = .next t) :
    s.canStep = true ∧ exec (decode s.fetch) s.resume = .next t := stepWith_next _ h

/-! ### Acts of the host -/

variable (i : InStream) (o : List Byte)

/-- A fresh instance, entered with the streams that `State.reset` has, is the state after reset. -/
theorem State.create_enterRun :
    State.create.enterRun State.reset.input State.reset.output = some State.reset := rfl

theorem State.enterRun_of_canStep (h : s.canStep = true) : s.enterRun i o = none := if_pos h

/-- Everything a run entry does (R301). -/
theorem State.enterRun_of_not_canStep (h : s.canStep = false) : s.enterRun i o =
    some ((((((s.setPc 0).setTos 0).setSp 8192).setRp 8256).setInput i).setOutput o).resume := by
  simp only [State.enterRun, h, Bool.false_eq_true, if_false]
  rfl

theorem State.load_of_not_idle (h : s.status ≠ .idle) (file : Option (List Byte)) : s.load file = none :=
  if_neg h

/-- Everything a load does: the image alone, or no state at all (R81, R82). -/
theorem State.load_of_idle (h : s.status = .idle) (file : List Byte) :
    s.load (some file) = (loadImage file s.mem).map s.setMem := by
  simp [State.load, h]

theorem State.hostSave_of_canStep (h : s.canStep = true) (path : String) (n : Nat) :
    s.hostSave path n = none := if_pos h

/-- Everything a host save does between runs (R84 to R86, R286). -/
theorem State.hostSave_of_not_canStep (h : s.canStep = false) (path : String) {n : Nat} (h1 : 1 ≤ n)
    (h2 : n ≤ 32768) : s.hostSave path n =
      some (if path = Config.blockPath then s.save n else s.reportSave, s.sinkAfterSave n) := by
  simp [State.hostSave, h, h1, h2]

theorem State.hostSave_of_count (path : String) {n : Nat} (h : n = 0 ∨ 32768 < n) :
    s.hostSave path n = none := by
  have : ¬ (1 ≤ n ∧ n ≤ 32768) := by omega
  simp [State.hostSave, this]

theorem State.supplyInput_setInput (bytes : List Byte) :
    s.supplyInput bytes = s.setInput (s.supplyInput bytes).input := by
  unfold State.supplyInput
  split <;> rfl

/-- What the host finds after an iteration that ended in the model's fault. -/
theorem State.afterStep_of_fault {w : Word} (h : step s = .fault (.reservedAluOp w)) :
    s.afterStep = some (s.setStatus (.faulted w)) := by
  simp only [State.afterStep, h]

theorem State.afterStep_of_next (h : step s = .next t) : s.afterStep = some t := by
  simp only [State.afterStep, h]

end Sys2Proof.Machine
end

