-- ==== Sys2Proof/Laws/PerInstr.lean ====
section
/-! SUPPORT. The statements made per instruction. `TableRow`: an instruction's word agrees with the match
and the mask of its row of spec/opcode_table.json, written out here from the table. -/

namespace Sys2Proof.Laws

/-- The mask and the match of an instruction's row of the opcode table. -/
def TableRow.row : Instr → Word × Word
  | .lit _ => (0x8000, 0x8000)
  | .aluT _ => (0xFF00, 0x6000)
  | .aluN _ => (0xFF00, 0x6100)
  | .aluAdd _ => (0xFF00, 0x6200)
  | .aluAnd _ => (0xFF00, 0x6300)
  | .aluOr _ => (0xFF00, 0x6400)
  | .aluXor _ => (0xFF00, 0x6500)
  | .aluNot _ => (0xFF00, 0x6600)
  | .aluEq _ => (0xFF00, 0x6700)
  | .aluLt _ => (0xFF00, 0x6800)
  | .aluShr _ => (0xFF00, 0x6900)
  | .aluDec _ => (0xFF00, 0x6A00)
  | .aluR _ => (0xFF00, 0x6B00)
  | .aluLoad _ => (0xFF00, 0x6C00)
  | .aluShl _ => (0xFF00, 0x6D00)
  | .aluDepth _ => (0xFF00, 0x6E00)
  | .aluULt _ => (0xFF00, 0x6F00)
  | .aluRDepth _ => (0xFF00, 0x7000)
  | .aluZeroEq _ => (0xFF00, 0x7100)
  | .aluSave _ => (0xFF00, 0x7200)
  | .aluTx _ => (0xFF00, 0x7300)
  | .aluRx _ => (0xFF00, 0x7400)
  | .aluBye _ => (0xFF00, 0x7500)
  | .reserved22 _ => (0xFF00, 0x7600)
  | .reserved23 _ => (0xFF00, 0x7700)
  | .reserved24 _ => (0xFF00, 0x7800)
  | .reserved25 _ => (0xFF00, 0x7900)
  | .reserved26 _ => (0xFF00, 0x7A00)
  | .reserved27 _ => (0xFF00, 0x7B00)
  | .reserved28 _ => (0xFF00, 0x7C00)
  | .reserved29 _ => (0xFF00, 0x7D00)
  | .reserved30 _ => (0xFF00, 0x7E00)
  | .reserved31 _ => (0xFF00, 0x7F00)
  | .call _ => (0xE000, 0x4000)
  | .zbranch _ => (0xE000, 0x2000)
  | .branch _ => (0xE000, 0x0000)

/-- An instruction's word agrees with its row of the opcode table. -/
def TableRow.Statement (i : Instr) : Prop := encode i &&& (TableRow.row i).1 = (TableRow.row i).2

/-- The class and opcode bits of an ALU word, whatever its fields. -/
theorem TableRow.encodeAlu_and (op : BitVec 5) (f : AluFields) :
    encodeAlu Config.aluLayout op f &&& 0xFF00 = 0x6000 ||| (op.setWidth 16 <<< 8) := by
  apply BitVec.eq_of_getLsbD_eq
  intro k hk
  simp only [encodeAlu, Config.aluLayout]
  interval_cases k <;> simp [getElem_flagBit]

theorem TableRow.lit (n : BitVec 15) : TableRow.Statement (.lit n) := by
  apply BitVec.eq_of_getLsbD_eq
  intro k hk
  simp only [encode, encodeWith, TableRow.row]
  interval_cases k <;> simp

theorem TableRow.aluT (f : AluFields) : TableRow.Statement (.aluT f) :=
  TableRow.encodeAlu_and _ f

theorem TableRow.aluN (f : AluFields) : TableRow.Statement (.aluN f) :=
  TableRow.encodeAlu_and _ f

theorem TableRow.aluAdd (f : AluFields) : TableRow.Statement (.aluAdd f) :=
  TableRow.encodeAlu_and _ f

theorem TableRow.aluAnd (f : AluFields) : TableRow.Statement (.aluAnd f) :=
  TableRow.encodeAlu_and _ f

theorem TableRow.aluOr (f : AluFields) : TableRow.Statement (.aluOr f) :=
  TableRow.encodeAlu_and _ f

theorem TableRow.aluXor (f : AluFields) : TableRow.Statement (.aluXor f) :=
  TableRow.encodeAlu_and _ f

theorem TableRow.aluNot (f : AluFields) : TableRow.Statement (.aluNot f) :=
  TableRow.encodeAlu_and _ f

theorem TableRow.aluEq (f : AluFields) : TableRow.Statement (.aluEq f) :=
  TableRow.encodeAlu_and _ f

theorem TableRow.aluLt (f : AluFields) : TableRow.Statement (.aluLt f) :=
  TableRow.encodeAlu_and _ f

theorem TableRow.aluShr (f : AluFields) : TableRow.Statement (.aluShr f) :=
  TableRow.encodeAlu_and _ f

theorem TableRow.aluDec (f : AluFields) : TableRow.Statement (.aluDec f) :=
  TableRow.encodeAlu_and _ f

theorem TableRow.aluR (f : AluFields) : TableRow.Statement (.aluR f) :=
  TableRow.encodeAlu_and _ f

theorem TableRow.aluLoad (f : AluFields) : TableRow.Statement (.aluLoad f) :=
  TableRow.encodeAlu_and _ f

theorem TableRow.aluShl (f : AluFields) : TableRow.Statement (.aluShl f) :=
  TableRow.encodeAlu_and _ f

theorem TableRow.aluDepth (f : AluFields) : TableRow.Statement (.aluDepth f) :=
  TableRow.encodeAlu_and _ f

theorem TableRow.aluULt (f : AluFields) : TableRow.Statement (.aluULt f) :=
  TableRow.encodeAlu_and _ f

theorem TableRow.aluRDepth (f : AluFields) : TableRow.Statement (.aluRDepth f) :=
  TableRow.encodeAlu_and _ f

theorem TableRow.aluZeroEq (f : AluFields) : TableRow.Statement (.aluZeroEq f) :=
  TableRow.encodeAlu_and _ f

theorem TableRow.aluSave (f : AluFields) : TableRow.Statement (.aluSave f) :=
  TableRow.encodeAlu_and _ f

theorem TableRow.aluTx (f : AluFields) : TableRow.Statement (.aluTx f) :=
  TableRow.encodeAlu_and _ f

theorem TableRow.aluRx (f : AluFields) : TableRow.Statement (.aluRx f) :=
  TableRow.encodeAlu_and _ f

theorem TableRow.aluBye (f : AluFields) : TableRow.Statement (.aluBye f) :=
  TableRow.encodeAlu_and _ f

theorem TableRow.reserved22 (f : AluFields) : TableRow.Statement (.reserved22 f) :=
  TableRow.encodeAlu_and _ f

theorem TableRow.reserved23 (f : AluFields) : TableRow.Statement (.reserved23 f) :=
  TableRow.encodeAlu_and _ f

theorem TableRow.reserved24 (f : AluFields) : TableRow.Statement (.reserved24 f) :=
  TableRow.encodeAlu_and _ f

theorem TableRow.reserved25 (f : AluFields) : TableRow.Statement (.reserved25 f) :=
  TableRow.encodeAlu_and _ f

theorem TableRow.reserved26 (f : AluFields) : TableRow.Statement (.reserved26 f) :=
  TableRow.encodeAlu_and _ f

theorem TableRow.reserved27 (f : AluFields) : TableRow.Statement (.reserved27 f) :=
  TableRow.encodeAlu_and _ f

theorem TableRow.reserved28 (f : AluFields) : TableRow.Statement (.reserved28 f) :=
  TableRow.encodeAlu_and _ f

theorem TableRow.reserved29 (f : AluFields) : TableRow.Statement (.reserved29 f) :=
  TableRow.encodeAlu_and _ f

theorem TableRow.reserved30 (f : AluFields) : TableRow.Statement (.reserved30 f) :=
  TableRow.encodeAlu_and _ f

theorem TableRow.reserved31 (f : AluFields) : TableRow.Statement (.reserved31 f) :=
  TableRow.encodeAlu_and _ f

theorem TableRow.call (a : BitVec 13) : TableRow.Statement (.call a) := by
  apply BitVec.eq_of_getLsbD_eq
  intro k hk
  simp only [encode, encodeWith, TableRow.row]
  interval_cases k <;> simp

theorem TableRow.zbranch (a : BitVec 13) : TableRow.Statement (.zbranch a) := by
  apply BitVec.eq_of_getLsbD_eq
  intro k hk
  simp only [encode, encodeWith, TableRow.row]
  interval_cases k <;> simp

theorem TableRow.branch (a : BitVec 13) : TableRow.Statement (.branch a) := by
  apply BitVec.eq_of_getLsbD_eq
  intro k hk
  simp only [encode, encodeWith, TableRow.row]
  interval_cases k <;> simp

end Sys2Proof.Laws
end

