-- ==== Sys2Proof/Tests/Slice0.lean ====
section
/-! SUPPORT. Tests of the model against the spec's own vectors, and for each statement with hypotheses a
state and operands that meet them. "V-..." names a row of spec/95_test_vectors.md. -/

open Sys2Proof Sys2Proof.Machine

namespace Sys2Proof.Tests

/-! ### Helpers -/

/-- A running state with the given registers and cells, and an input stream that holds the bytes. -/
def at_ (pc tos sp rp : Word) (cells : List (Nat × Word)) (bytes : List Byte := []) (closed : Bool := false) :
    State :=
  { State.reset with
    pc := pc, tos := tos, sp := sp, rp := rp
    mem := cells.foldl (fun m c => m.writeCell c.1 c.2) []
    input := { bytes := bytes, pos := 0, closed := closed } }

/-- What a next state shows. -/
def shows {α : Type} (o : Host.Outcome State Fault Refusal) (view : State → α) : Option α :=
  match o with
  | .next t => some (view t)
  | .fault _ => none
  | .refused _ => none

/-- What one step shows, with the word in the cell it fetches. -/
def ran {α : Type} (w : Nat) (s : State) (view : State → α) : Option α :=
  shows (step (s.withFetchWord 16 w)) view

/-- The fault one step raises, with the word in the cell it fetches. -/
def faultOf (w : Nat) (s : State) : Option Fault :=
  match step (s.withFetchWord 16 w) with
  | .fault r => some r
  | .next _ => none
  | .refused _ => none

def regs (t : State) : Word × Word × Word × Word := (t.pc, t.tos, t.sp, t.rp)

/-! ### Well-formedness: each check refuses an ill-formed term -/

theorem test_wf_reserved_refused : (Instr.reserved22 {}).wellFormed = false := by decide
theorem test_wf_defined_accepted : (Instr.aluBye {}).wellFormed = true := by decide
theorem test_wf_literal_too_wide : (AsmLine.lit 65536).wellFormed = false := by decide
theorem test_wf_call_too_far : (AsmLine.call 8192).wellFormed = false := by decide
theorem test_wf_zbranch_too_far : (AsmLine.zbranch 8192).wellFormed = false := by decide
theorem test_wf_branch_too_far : (AsmLine.branch 8192).wellFormed = false := by decide
theorem test_wf_alu_reserved : (AsmLine.alu 22 {}).wellFormed = false := by decide
theorem test_wf_line_accepted : (AsmLine.alu 21 {}).wellFormed = true := by decide
theorem test_wf_layout_overlap : ({ Config.aluLayout with t2r := 7 } : AluLayout).wellFormed = false := by
  decide
theorem test_wf_layout_in_class : ({ Config.aluLayout with t2n := 13 } : AluLayout).wellFormed = false := by
  decide
theorem test_wf_memory_order : Memory.wf [(2, 1), (1, 1)] = false := by decide
theorem test_wf_memory_unlisted_value : Memory.wf [(1, 0)] = false := by decide
theorem test_wf_memory_range : Memory.wf [(65536, 1)] = false := by decide

/-! ### Decoding: words written out bit by bit from R102 to R104 -/

theorem test_decode_lit : decode 0b1111111111111110 = .lit 0x7FFE := by decide
theorem test_decode_call : decode 0b0101000000000011 = .call 0x1003 := by decide
theorem test_decode_zbranch : decode 0b0010000000000111 = .zbranch 7 := by decide
theorem test_decode_branch : decode 0b0001111111111111 = .branch 0x1FFF := by decide
theorem test_decode_aluT : decode 0b0110000000000001 = .aluT { dd := .plusOne } := by decide
theorem test_decode_aluN : decode 0b0110000100100110 = .aluN { n2a := true, rd := .plusOne, dd := .minusTwo } := by decide
theorem test_decode_aluAdd : decode 0b0110001001001011 = .aluAdd { t2r := true, rd := .minusTwo, dd := .minusOne } := by decide
theorem test_decode_aluAnd : decode 0b0110001101110000 = .aluAnd { t2r := true, n2a := true, r2p := true } := by decide
theorem test_decode_aluOr : decode 0b0110010010010101 = .aluOr { t2n := true, r2p := true, rd := .plusOne, dd := .plusOne } := by decide
theorem test_decode_aluXor : decode 0b0110010110111010 = .aluXor { t2n := true, n2a := true, r2p := true, rd := .minusTwo, dd := .minusTwo } := by decide
theorem test_decode_aluNot : decode 0b0110011011011111 = .aluNot { t2n := true, t2r := true, r2p := true, rd := .minusOne, dd := .minusOne } := by decide
theorem test_decode_aluEq : decode 0b0110011100000100 = .aluEq { rd := .plusOne } := by decide
theorem test_decode_aluLt : decode 0b0110100000101001 = .aluLt { n2a := true, rd := .minusTwo, dd := .plusOne } := by decide
theorem test_decode_aluShr : decode 0b0110100101001110 = .aluShr { t2r := true, rd := .minusOne, dd := .minusTwo } := by decide
theorem test_decode_aluDec : decode 0b0110101001110011 = .aluDec { t2r := true, n2a := true, r2p := true, dd := .minusOne } := by decide
theorem test_decode_aluR : decode 0b0110101110011000 = .aluR { t2n := true, r2p := true, rd := .minusTwo } := by decide
theorem test_decode_aluLoad : decode 0b0110110010111101 = .aluLoad { t2n := true, n2a := true, r2p := true, rd := .minusOne, dd := .plusOne } := by decide
theorem test_decode_aluShl : decode 0b0110110111100010 = .aluShl { t2n := true, t2r := true, n2a := true, dd := .minusTwo } := by decide
theorem test_decode_aluDepth : decode 0b0110111000000111 = .aluDepth { rd := .plusOne, dd := .minusOne } := by decide
theorem test_decode_aluULt : decode 0b0110111100101100 = .aluULt { n2a := true, rd := .minusOne } := by decide
theorem test_decode_aluRDepth : decode 0b0111000001010001 = .aluRDepth { t2r := true, r2p := true, dd := .plusOne } := by decide
theorem test_decode_aluZeroEq : decode 0b0111000101110110 = .aluZeroEq { t2r := true, n2a := true, r2p := true, rd := .plusOne, dd := .minusTwo } := by decide
theorem test_decode_aluSave : decode 0b0111001010011011 = .aluSave { t2n := true, r2p := true, rd := .minusTwo, dd := .minusOne } := by decide
theorem test_decode_aluTx : decode 0b0111001111000000 = .aluTx { t2n := true, t2r := true } := by decide
theorem test_decode_aluRx : decode 0b0111010011100101 = .aluRx { t2n := true, t2r := true, n2a := true, rd := .plusOne, dd := .plusOne } := by decide
theorem test_decode_aluBye : decode 0b0111010100001010 = .aluBye { rd := .minusTwo, dd := .minusTwo } := by decide
theorem test_decode_reserved22 : decode 0b0111011000101111 = .reserved22 { n2a := true, rd := .minusOne, dd := .minusOne } := by decide
theorem test_decode_reserved23 : decode 0b0111011101010100 = .reserved23 { t2r := true, r2p := true, rd := .plusOne } := by decide
theorem test_decode_reserved24 : decode 0b0111100001111001 = .reserved24 { t2r := true, n2a := true, r2p := true, rd := .minusTwo, dd := .plusOne } := by decide
theorem test_decode_reserved25 : decode 0b0111100110011110 = .reserved25 { t2n := true, r2p := true, rd := .minusOne, dd := .minusTwo } := by decide
theorem test_decode_reserved26 : decode 0b0111101011000011 = .reserved26 { t2n := true, t2r := true, dd := .minusOne } := by decide
theorem test_decode_reserved27 : decode 0b0111101111101000 = .reserved27 { t2n := true, t2r := true, n2a := true, rd := .minusTwo } := by decide
theorem test_decode_reserved28 : decode 0b0111110000001101 = .reserved28 { rd := .minusOne, dd := .plusOne } := by decide
theorem test_decode_reserved29 : decode 0b0111110100110010 = .reserved29 { n2a := true, r2p := true, dd := .minusTwo } := by decide
theorem test_decode_reserved30 : decode 0b0111111001010111 = .reserved30 { t2r := true, r2p := true, rd := .plusOne, dd := .minusOne } := by decide
theorem test_decode_reserved31 : decode 0b0111111101111100 = .reserved31 { t2r := true, n2a := true, r2p := true, rd := .minusOne } := by decide
theorem test_decode_bytes : decodeBytes [0x03, 0x62, 0xFF] = .ok (.aluAdd { dd := .minusOne }, [0xFF]) := by
  rfl
theorem test_decode_truncated : decodeBytes [0x03] = .error .truncated := by rfl
theorem test_table_word : decodeTableWord 16 0x7303 = some (.aluTx { dd := .minusOne }) := by decide
theorem test_table_word_wide : decodeTableWord 24 0x7303 = none := by decide
theorem test_assemble_wide_literal : (AsmLine.lit 0x8000).assemble = some [0xFFFF, 0x6600] := by decide
theorem test_assemble_alu : (AsmLine.alu 1 { n2a := true, dd := .minusOne }).assemble = some [0x6123] := by
  decide
theorem test_assemble_refuses : (AsmLine.call 9000).assemble = none := by decide

/-! ### One step of each instruction -/

/-- V-LIT1. -/
theorem test_lit :
    ran 0x8005 (at_ 0 7 8192 8256 []) (fun t => (regs t, t.readCell 8193)) = some ((1, 5, 8193, 8256), 7) := by decide
/-- V-LIT3. -/
theorem test_lit_wraps_sp :
    ran 0x8001 (at_ 10 7 0xFFFF 8256 []) (fun t => (regs t, t.readCell 0)) = some ((11, 1, 0, 8256), 7) := by decide
/-- V-CALL1. -/
theorem test_call :
    ran 0x4008 (at_ 4 3 8192 8256 []) (fun t => (regs t, t.readCell 8257)) = some ((8, 3, 8192, 8257), 10) := by decide
/-- V-CALL4. -/
theorem test_call_high_pc :
    ran 0x4003 (at_ 0x8000 3 8192 8256 []) (fun t => (regs t, t.readCell 8257)) = some ((3, 3, 8192, 8257), 2) := by decide
/-- V-ZB1. -/
theorem test_zbranch_taken :
    ran 0x2007 (at_ 2 0 8194 8256 [(8194, 3)]) (fun t => regs t) = some (7, 3, 8193, 8256) := by decide
/-- V-ZB3. -/
theorem test_zbranch_falls_through :
    ran 0x2007 (at_ 2 0x8000 8194 8256 [(8194, 9)]) (fun t => regs t) = some (3, 9, 8193, 8256) := by decide
/-- V-BR1. -/
theorem test_branch :
    ran 0x0001 (at_ 6 3 8192 8256 []) (fun t => regs t) = some (1, 3, 8192, 8256) := by decide
/-- V-ALU0. -/
theorem test_aluT :
    ran 0x6000 (at_ 0x100 0x1234 8193 8256 [(8193, 5)]) (fun t => (t.tos, t.pc)) = some (0x1234, 0x101) := by decide
/-- V-D4 and V-D5 in one word: d+1 at the top, r-2 below zero. -/
theorem test_aluT_swap_deltas :
    ran 0x6009 (at_ 0x100 1 0xFFFF 1 []) (fun t => regs t) = some (0x101, 1, 0, 0xFFFF) := by decide
/-- V-ALU1. -/
theorem test_aluN :
    ran 0x6103 (at_ 0x100 1 8193 8256 [(8193, 2)]) (fun t => regs t) = some (0x101, 2, 8192, 8256) := by decide
/-- V-ST2. -/
theorem test_aluN_to_r :
    ran 0x6147 (at_ 0x100 0x42 8194 8256 [(8194, 0x11)]) (fun t => (regs t, t.readCell 8257)) = some ((0x101, 0x11, 8193, 8257), 0x42) := by decide
/-- V-ALU2b. -/
theorem test_aluAdd :
    ran 0x6200 (at_ 0x100 0x7FFF 8193 8256 [(8193, 1)]) (fun t => (t.tos, t.pc)) = some (0x8000, 0x101) := by decide
/-- V-ALU2c. -/
theorem test_aluAdd_wraps :
    ran 0x6200 (at_ 0x100 0x8000 8193 8256 [(8193, 0x8000)]) (fun t => (t.tos, t.pc)) = some (0, 0x101) := by decide
/-- V-ALU3. -/
theorem test_aluAnd :
    ran 0x6300 (at_ 0x100 0x0F0F 8193 8256 [(8193, 0x00FF)]) (fun t => (t.tos, t.pc)) = some (0x000F, 0x101) := by decide
/-- V-ALU4. -/
theorem test_aluOr :
    ran 0x6400 (at_ 0x100 0x0F00 8193 8256 [(8193, 0x00F0)]) (fun t => (t.tos, t.pc)) = some (0x0FF0, 0x101) := by decide
/-- V-ALU5a. -/
theorem test_aluXor :
    ran 0x6500 (at_ 0x100 0xFF00 8193 8256 [(8193, 0x0FF0)]) (fun t => (t.tos, t.pc)) = some (0xF0F0, 0x101) := by decide
/-- V-ALU6b. -/
theorem test_aluNot :
    ran 0x6600 (at_ 0x100 0x7FFF 8193 8256 [(8193, 0)]) (fun t => (t.tos, t.pc)) = some (0x8000, 0x101) := by decide
/-- V-ALU7a. -/
theorem test_aluEq :
    ran 0x6700 (at_ 0x100 5 8193 8256 [(8193, 5)]) (fun t => (t.tos, t.pc)) = some (0xFFFF, 0x101) := by decide
/-- V-ALU7b. -/
theorem test_aluEq_differ :
    ran 0x6700 (at_ 0x100 0 8193 8256 [(8193, 0xFFFF)]) (fun t => (t.tos, t.pc)) = some (0, 0x101) := by decide
/-- V-ALU8a. -/
theorem test_aluLt :
    ran 0x6800 (at_ 0x100 1 8193 8256 [(8193, 0x8000)]) (fun t => (t.tos, t.pc)) = some (0xFFFF, 0x101) := by decide
/-- V-ALU8b. -/
theorem test_aluLt_not :
    ran 0x6800 (at_ 0x100 0x8000 8193 8256 [(8193, 1)]) (fun t => (t.tos, t.pc)) = some (0, 0x101) := by decide
/-- V-ALU9e. -/
theorem test_aluShr :
    ran 0x6900 (at_ 0x100 1 8193 8256 [(8193, 0x8000)]) (fun t => (t.tos, t.pc)) = some (0x4000, 0x101) := by decide
/-- V-ALU9d. -/
theorem test_aluShr_width :
    ran 0x6900 (at_ 0x100 16 8193 8256 [(8193, 0xFFFF)]) (fun t => (t.tos, t.pc)) = some (0, 0x101) := by decide
/-- V-ALU10a. -/
theorem test_aluDec :
    ran 0x6A00 (at_ 0x100 0 8193 8256 [(8193, 0)]) (fun t => (t.tos, t.pc)) = some (0xFFFF, 0x101) := by decide
/-- V-ALU11. -/
theorem test_aluR :
    ran 0x6B81 (at_ 0x100 0x55 8193 8257 [(8257, 0xA)]) (fun t => (regs t, t.readCell 8194)) = some ((0x101, 0xA, 8194, 8257), 0x55) := by decide
/-- V-ST3. -/
theorem test_aluR_from_r :
    ran 0x6B8D (at_ 0x100 0x42 8193 8257 [(8257, 0x99)]) (fun t => (regs t, t.readCell 8194)) = some ((0x101, 0x99, 8194, 8256), 0x42) := by decide
/-- V-ALU12b. -/
theorem test_aluLoad_odd :
    ran 0x6C00 (at_ 0x100 0x6001 8193 8256 [(0x3000, 0x1234)]) (fun t => t.tos) = some (0x1234) := by decide
/-- V-ALU12c. -/
theorem test_aluLoad_top :
    ran 0x6C00 (at_ 0x100 0xFFFF 8193 8256 [(32767, 0xBEEF)]) (fun t => t.tos) = some (0xBEEF) := by decide
/-- V-ALU13d. -/
theorem test_aluShl :
    ran 0x6D00 (at_ 0x100 4 8193 8256 [(8193, 0xFFFF)]) (fun t => (t.tos, t.pc)) = some (0xFFF0, 0x101) := by decide
/-- V-ALU13c. -/
theorem test_aluShl_width :
    ran 0x6D00 (at_ 0x100 16 8193 8256 [(8193, 1)]) (fun t => (t.tos, t.pc)) = some (0, 0x101) := by decide
/-- V-ALU14b. -/
theorem test_aluDepth :
    ran 0x6E81 (at_ 0x100 9 8194 8256 []) (fun t => (regs t, t.readCell 8195)) = some ((0x101, 2, 8195, 8256), 9) := by decide
/-- V-ALU14d. -/
theorem test_aluDepth_below_base :
    ran 0x6E00 (at_ 0x100 9 0 8256 []) (fun t => t.tos) = some (0xE000) := by decide
/-- V-ALU15a. -/
theorem test_aluULt :
    ran 0x6F00 (at_ 0x100 0x8000 8193 8256 [(8193, 1)]) (fun t => (t.tos, t.pc)) = some (0xFFFF, 0x101) := by decide
/-- V-ALU15b. -/
theorem test_aluULt_not :
    ran 0x6F00 (at_ 0x100 1 8193 8256 [(8193, 0x8000)]) (fun t => (t.tos, t.pc)) = some (0, 0x101) := by decide
/-- V-ALU16b. -/
theorem test_aluRDepth :
    ran 0x7000 (at_ 0x100 9 8193 8255 []) (fun t => t.tos) = some (0xFFFF) := by decide
/-- V-ALU17a. -/
theorem test_aluZeroEq :
    ran 0x7100 (at_ 0x100 0 8193 8256 [(8193, 0)]) (fun t => (t.tos, t.pc)) = some (0xFFFF, 0x101) := by decide
/-- V-ALU17b. -/
theorem test_aluZeroEq_not :
    ran 0x7100 (at_ 0x100 0x8000 8193 8256 [(8193, 0)]) (fun t => (t.tos, t.pc)) = some (0, 0x101) := by decide
/-- V-ST8. -/
theorem test_store_order_n_wins :
    ran 0x60A0 (at_ 0x100 0x4004 8194 8256 [(8194, 0xAAAA)]) (fun t => (t.readCell 8194, t.tos)) = some (0xAAAA, 0x4004) := by decide
/-- V-ST9. -/
theorem test_store_snapshot :
    ran 0x60A0 (at_ 0x100 0x6000 8194 8256 [(8194, 0xAAAA)]) (fun t => (t.readCell 8194, t.readCell 0x3000)) = some (0x6000, 0xAAAA) := by decide
/-- V-RET2. -/
theorem test_return_with_pop :
    ran 0x601C (at_ 0x100 0 8193 8257 [(8256, 0x40), (8257, 0xA)]) (fun t => (t.pc, t.rp)) = some (0x20, 8256) := by decide
/-- V-RET3. -/
theorem test_return_through_store :
    ran 0x6054 (at_ 0x100 0x10 8193 8256 []) (fun t => (t.pc, t.rp, t.readCell 8257)) = some (8, 8257, 0x10) := by decide
/-- V-SYS1. -/
theorem test_aluSave :
    ran 0x7200 (at_ 0x100 7 8193 8256 []) (fun t => (t.tos, t.pc, t.saves)) = some (7, 0x101, 1) := by decide
/-- V-SYS2. -/
theorem test_aluTx :
    ran 0x7303 (at_ 0x100 0x1241 8193 8256 [(8193, 3)]) (fun t => (regs t, t.output)) = some ((0x101, 3, 8192, 8256), [0x41]) := by decide
/-- V-SYS3. -/
theorem test_aluRx :
    ran 0x7481 (at_ 0x100 0 8192 8256 [] [0x68]) (fun t => (regs t, t.input.pos)) = some ((0x101, 0x68, 8193, 8256), 1) := by decide
/-- V-SYS5. -/
theorem test_aluRx_end_of_input :
    ran 0x74D5 (at_ 0x100 0x77 8193 8256 [] [] true) (fun t => (regs t, t.status)) = some ((0x100, 0x77, 8193, 8256), .cleanStop) := by decide
/-- V-SYS6. -/
theorem test_aluBye :
    ran 0x7581 (at_ 0x100 8 8193 8256 []) (fun t => (regs t, t.status)) = some ((0x100, 8, 8193, 8256), .halted 8) := by decide
/-- R200, with V-RSV1 and V-RSV2 for the first and the last. -/
theorem test_reserved :
    [0x7600, 0x7701, 0x7802, 0x7903, 0x7A04, 0x7B05, 0x7C06, 0x7D07, 0x7E08, 0x7FFF].all
      (fun w => faultOf w (at_ 0x100 1 8193 8256 []) == some (.reservedAluOp (BitVec.ofNat 16 w))) = true := by
  decide
/-- R268: an ended run has no step. -/
theorem test_ended : (match step ((at_ 0 1 8192 8256 []).halt 1) with
    | .fault .notRunning => true | _ => false) = true := by decide
/-- V-BF1: the first bytes of a saved image. -/
theorem test_saved_bytes :
    (serialize 3 [(0, 0x42), (1, 0xC1), (3, 0x81), (4, 0x23), (5, 0x61)]) = [0x42, 0xC1, 0x00, 0x81, 0x23, 0x61] := by
  decide
/-- R80 to R82: two words loaded over an image, and a short read. -/
theorem test_load : loadCells 2 0 [0x42, 0xC1, 0x00, 0x81, 0xFF] [(0, 9), (2, 9)] =
    some [(0, 0x42), (1, 0xC1), (3, 0x81)] := by decide
theorem test_load_short : loadCells 2 0 [0x42, 0xC1, 0x00] [] = none := by decide
/-- R301: run entry keeps the image. -/
theorem test_run_entry : (((at_ 9 1 2 3 [(5, 7)]).halt 1).enterRun State.reset.input []).map (·.mem) =
    some [(10, 7)] := by decide
/-- R285, R42: no entry while a run is in progress, and no load once one has been entered. -/
theorem test_no_load_in_run : (at_ 9 1 2 3 []).load (some (List.replicate 4 0)) = none ∧
    (at_ 9 1 2 3 []).enterRun State.reset.input [] = none := by decide
/-- R8: the same word under another layout (opcode in bits 4:0) is another instruction. -/
theorem test_other_layout : decodeWith { op := 0, t2n := 12, t2r := 11, n2a := 10, r2p := 9, rd := 5, dd := 7 } 0x6016 =
    .reserved22 {} := by decide
/-- A write of the unlisted value removes the entry. -/
theorem test_write_zero : Memory.writeByte [(3, 1), (5, 2)] 3 0 = [(5, 2)] := by decide

/-! ### Witnesses: for each statement with hypotheses, a case that meets them -/

theorem witness_layout : Config.aluLayout.wellFormed = true ∧
    ({ op := 0, t2n := 12, t2r := 11, n2a := 10, r2p := 9, rd := 5, dd := 7 } : AluLayout).wellFormed = true := by
  decide
theorem witness_classes :
    (0x8000#16).getLsbD 15 = true ∧ 0x7FFF#16 &&& 0xE000#16 = 0x6000#16 ∧ (0x5FFF#16).getLsbD 14 = true ∧
      (0x3FFF#16).getLsbD 13 = true ∧ (0x1FFF#16).getLsbD 13 = false := by decide
/-- The ends of each operand's range, through the words themselves. -/
theorem witness_words : decode 0xFFFF = .lit 32767 ∧ decode 0x5FFF = .call 8191 ∧ decode 0x3FFF = .zbranch 8191 ∧
    decode 0x1FFF = .branch 8191 ∧ (decode 0x7FFF).aluForm? = some (31, ⟨true, true, true, true, .minusOne, .minusOne⟩) := by
  decide
theorem witness_wide_literal : 32768 ≤ 32768 ∧ 32768 < 65536 ∧ 32768 ≤ 65535 ∧ 65535 < 65536 := by decide
theorem witness_conversions : (0x7FFF#16).toNat < 32768 ∧ 32768 ≤ (0x8000#16).toNat := by decide
theorem witness_step_runs : State.reset.status = .running ∧ State.reset.wait.status = .waiting ∧
    decode (State.reset.mem.readCell (State.reset.pc.toNat % 32768)) = .branch 0 := by decide
/-- An instance not entered, and one for each way a run ends. -/
theorem witness_ended :
    [State.create, State.reset.halt 5, State.reset.cleanStop, State.reset.setStatus (.faulted 0x7600)].all
      (fun s => s.status != .running && s.status != .waiting) = true := by decide
/-- A halt, a clean stop, a wait and a fault: one state for each clause. -/
theorem witness_terminal :
    ran 0x7500 (at_ 0 8 8192 8256 []) (fun t => t.status) = some (.halted 8) ∧
    ran 0x7400 (at_ 0 8 8192 8256 [] [] true) (fun t => t.status) = some .cleanStop ∧
    ran 0x7400 (at_ 0 8 8192 8256 []) (fun t => t.status) = some .waiting ∧
    faultOf 0x7600 (at_ 0 8 8192 8256 []) = some (.reservedAluOp 0x7600) := by decide
theorem witness_precise : ∃ t, step ((at_ 0 8 8192 8256 []).withFetchWord 16 0x7581) = .next t ∧
    t.canStep = false := ⟨_, rfl, by decide⟩
theorem witness_wait :
    let s := (at_ 0 8 8192 8256 []).withFetchWord 16 0x7481
    s.canStep = true ∧ decode s.fetch = .aluRx { t2n := true, dd := .plusOne } ∧
      s.input.pos = s.input.bytes.length ∧ s.input.closed = false := by decide
theorem witness_zero_image : State.reset.mem = [] ∧ State.reset.pc = 0 ∧ State.reset.status = .running := by
  decide
theorem witness_stored_word :
    (let s := at_ 4 10 8193 8256 [(8193, 0x7500)]
     (Instr.aluN { n2a := true, dd := .minusOne }).aluForm? = some (1, { n2a := true, dd := .minusOne }) ∧
       AluRuns 1 s ∧ idx (b2w s.tos) = idx (s.pc + 1) ∧ s.status = .running) ∧
    (let s := at_ 4 10 8193 8256 [(8193, 0x7500)] [0x41]
     (Instr.aluRx { n2a := true }).aluForm? = some (20, { n2a := true }) ∧
       AluRuns 20 s ∧ idx (b2w s.tos) = idx (s.pc + 1) ∧ s.status = .running) ∧
    (let s := at_ 4 0x7500 4 8256 []
     idx (s.sp + 1) = idx (s.pc + 1) ∧ s.status = .running) := by decide
/-- A call at 4 and a return word that meets every condition; and a call at 0x7FFF, where bit 15 is lost. -/
theorem witness_call_return :
    let f : AluFields := { r2p := true, t2n := true, dd := .plusOne }
    (∃ t, exec (.call 8) (at_ 4 3 8192 8256 []) = .next t ∧ (Instr.aluT f).aluForm? = some (0, f) ∧
      AluRuns 0 t ∧ f.r2p = true ∧ f.rd = .zero ∧ f.t2r = false ∧
      (f.t2n = true → idx (t.sp + deltaAddend f.dd) ≠ idx t.rp) ∧
      (f.n2a = true → idx (b2w t.tos) ≠ idx t.rp)) ∧
    (∃ t, exec (.call 8) (at_ 0x7FFF 3 8192 8256 []) = .next t ∧ ¬ (at_ 0x7FFF 3 8192 8256 []).pc + 1 < 0x8000) :=
  ⟨⟨_, rfl, by decide⟩, ⟨_, rfl, by decide⟩⟩
/-- For the statements about an ALU word that runs to its end: the first and the last opcode that always
does, and opcode 20 with one byte left. -/
theorem witness_alu_runs :
    (Instr.aluT {}).aluForm? = some (0, {}) ∧ AluRuns 0 State.reset ∧
    (Instr.aluTx {}).aluForm? = some (19, {}) ∧ AluRuns 19 State.reset ∧
    (Instr.aluRx {}).aluForm? = some (20, {}) ∧ AluRuns 20 (at_ 0 8 8192 8256 [] [0xFF]) := by
  decide
/-- One state for each clause of the store order: the memory store; the data-stack store alone; the
return-stack store alone; the return through each of the three; the return with pop. -/
theorem witness_store_order :
    shows (exec (.aluT { n2a := true }) (at_ 0 16 8193 8256 [(8193, 5)])) (fun t => t.readCell 8) = some 5 ∧
    shows (exec (.aluT { t2n := true, n2a := true }) (at_ 0 16 8193 8256 [(8193, 5)]))
      (fun t => (t.readCell t.sp, idx (b2w 16) == idx t.sp)) = some (16, false) ∧
    shows (exec (.aluT { t2r := true, n2a := true }) (at_ 0 16 8193 8256 [(8193, 5)]))
      (fun t => (t.readCell t.rp, idx (b2w 16) == idx t.rp)) = some (16, false) ∧
    shows (exec (.aluT { n2a := true, r2p := true }) (at_ 0 16512 8193 8256 [(8193, 10)]))
      (fun t => (t.pc, idx (b2w 16512) == idx t.rp)) = some (5, true) ∧
    shows (exec (.aluT { t2r := true, r2p := true }) (at_ 0 16 8193 8256 [])) (fun t => t.pc) = some 8 ∧
    shows (exec (.aluT { t2n := true, r2p := true }) (at_ 0 16 8256 8256 []))
      (fun t => (t.pc, idx t.sp == idx t.rp)) = some (8, true) ∧
    shows (exec (.aluT { r2p := true, rd := .minusOne }) (at_ 0 16 8193 8257 [(8256, 0x40)]))
      (fun t => t.pc) = some 0x20 := by decide
theorem witness_rx :
    (at_ 0 8 8192 8256 [] [0xFF]).input.bytes[0]? = some 0xFF ∧
    (let s := at_ 0 8 8192 8256 [] [] true
     s.input.bytes.length ≤ s.input.pos ∧ s.input.closed = true) ∧
    (let s := at_ 0 8 8192 8256 []
     s.input.bytes.length ≤ s.input.pos ∧ s.input.closed = false) := by decide
theorem witness_reserved :
    (let s := (at_ 0 1 8193 8256 []).withFetchWord 16 0x7600
     s.canStep = true ∧ s.fetch &&& 0xE000 = 0x6000 ∧ 22 ≤ (s.fetch.extractLsb' 8 5).toNat) ∧
    (let s := (at_ 0 1 8193 8256 []).withFetchWord 16 0x7FFF
     s.canStep = true ∧ s.fetch &&& 0xE000 = 0x6000 ∧ 22 ≤ (s.fetch.extractLsb' 8 5).toNat) ∧
    (let s := (at_ 0 1 8193 8256 []).withFetchWord 16 0x6016
     s.canStep = true ∧ s.fetch &&& 0xE000 = 0x6000 ∧ 22 ≤ (s.fetch.extractLsb' 0 5).toNat) := by decide
/-- For LoadSetsEveryCell: a file of the exact length and a longer one. -/
theorem witness_load_long : 65536 ≤ (List.replicate 65536 (0 : Byte)).length ∧
    65536 ≤ (List.replicate 70000 (0 : Byte)).length := by
  simp only [List.length_replicate]
  decide
theorem witness_load_short : (List.replicate 65535 (0 : Byte)).length < 65536 := by
  simp only [List.length_replicate]
  decide
theorem witness_save_load : Memory.wf [(0, 1), (65535, 255)] = true := by decide
/-- The invariant holds of a running state that can step, and of a state that waits. -/
theorem witness_invariant :
    (State.Inv (at_ 0 8 8192 8256 [(0, 0x7481)] [1]) ∧
      ∃ t, step (at_ 0 8 8192 8256 [(0, 0x7481)] [1]) = .next t) ∧
    (State.Inv (at_ 0 8 8192 8256 [(0, 0x7481)]).wait ∧
      ∃ t, step (at_ 0 8 8192 8256 [(0, 0x7481)]).wait = .next t) :=
  ⟨⟨⟨by decide, by decide, fun h => by cases h⟩, ⟨_, rfl⟩⟩,
    ⟨⟨by decide, by decide, fun _ => ⟨⟨{ t2n := true, dd := .plusOne }, by decide⟩, by decide⟩⟩, ⟨_, rfl⟩⟩⟩
/-- For RunEntrySetsRegisters, FreshStacks and ResetMeetsTheInvariant: an instance not entered, and one
whose run has halted, with a program in its image. -/
theorem witness_run_entry :
    State.create.canStep = false ∧ ((at_ 9 1 2 3 [(5, 7)]).halt 1).canStep = false ∧
    ((at_ 9 1 2 3 [(5, 7)]).halt 1).mem.wf = true ∧ State.reset.input.pos ≤ State.reset.input.bytes.length ∧
    (((at_ 9 1 2 3 [(5, 7)]).halt 1).enterRun State.reset.input []).isSome = true := by decide
/-- For HostActsBetweenRunsAlone and HostSaveDrawsAndReports: a run in progress, a run waiting, an instance
without a run, and counts of a host save on both sides of either end of their range. -/
theorem witness_host_acts : State.reset.canStep = true ∧ State.reset.wait.canStep = true ∧
    State.create.canStep = false ∧ State.create.status = .idle ∧ (State.reset.halt 1).status ≠ .idle ∧ 65536 ≤ (List.replicate 65536 (0 : Byte)).length ∧
    0 = 0 ∧ 1 ≤ 1 ∧ 1 ≤ 32768 ∧ 32768 ≤ 32768 ∧ 32768 < 32769 := by
  simp only [List.length_replicate]
  decide
/-- A byte outside the cell a literal writes. -/
theorem witness_listed_cells : (∃ t, exec (.lit 5) State.reset = .next t) ∧
    0 / 2 ∉ storedCells (.lit 5) State.reset := ⟨⟨_, rfl⟩, by decide⟩
/-- Each device's own opcode does change it. -/
theorem witness_devices :
    shows (exec (.aluRx {}) (at_ 0 8 8192 8256 [] [1])) (fun t => t.input == ⟨[1], 0, false⟩) = some false ∧
    shows (exec (.aluTx {}) (at_ 0 8 8192 8256 [])) (fun t => t.output == []) = some false ∧
    shows (exec (.aluSave {}) (at_ 0 8 8192 8256 [])) (fun t => t.saves == 0) = some false := by decide
/-- A literal changes `tos` and `sp`, and a call changes `rp`. -/
theorem witness_registers :
    shows (exec (.lit 5) State.reset) (fun t => (t.tos == 0, t.sp == 8192)) = some (false, false) ∧
    shows (exec (.call 5) State.reset) (fun t => t.rp == 8256) = some false := by decide
/-- Each kind of transfer, at the end of its reach. -/
theorem witness_reach :
    shows (exec (.call 8191) State.reset) (fun t => (t.pc, t.canStep, t.status)) = some (8191, true, .running) ∧
    shows (exec (.zbranch 8191) State.reset) (fun t => (t.pc, t.canStep, t.status)) = some (8191, true, .running) ∧
    shows (exec (.aluT { r2p := true }) (at_ 0 8 8192 8256 [(8256, 0xFFFF)]))
      (fun t => (t.pc, t.canStep, t.status)) = some (32767, true, .running) ∧
    shows (exec (.lit 0) (at_ 0xFFFF 8 8192 8256 [])) (fun t => (t.pc, t.canStep, t.status)) =
      some (0, true, .running) := by decide
theorem witness_devices_unseen : SameCore State.reset (at_ 0 0 8192 8256 [] [1, 2] true) ∧
    (∃ t, exec (.aluTx {}) State.reset = .next t) ∧ (∀ f, (Instr.aluTx {}) ≠ .aluRx f) :=
  ⟨⟨rfl, rfl, rfl, rfl, rfl⟩, ⟨_, rfl⟩, fun _ h => by cases h⟩

end Sys2Proof.Tests
end

section
/-! The bytes of a serialized image (R80), cell by cell. -/

open Sys2Proof.Machine

namespace Sys2Proof.Proofs

/-- The file's byte order (R80) at each cell of a serialization that begins at cell `k`. -/
theorem serializeFrom_getElem? (m : Memory) {n j : Nat} (k : Nat) (hj : j < n) :
    (serializeFrom m n k)[2 * j]? = some (lowByte (m.readCell (k + j))) ∧
      (serializeFrom m n k)[2 * j + 1]? = some (highByte (m.readCell (k + j))) := by
  induction n generalizing k j with
  | zero => exact absurd hj j.not_lt_zero
  | succ n ih =>
    rw [serializeFrom_succ]
    cases j with
    | zero => exact ⟨rfl, rfl⟩
    | succ j =>
      rw [show k + (j + 1) = k + 1 + j by omega]
      exact ih (k + 1) (Nat.lt_of_succ_lt_succ hj)

/-- Settles O44, from the serializer's length and its bytes at each cell, at first cell 0. -/
theorem savedBytesLayout : Obligations.SavedBytesLayout := by
  intro n m
  refine ⟨serializeFrom_length m n 0, fun k hk => ?_⟩
  have hbytes := serializeFrom_getElem? m 0 hk
  rwa [Nat.zero_add] at hbytes

end Sys2Proof.Proofs
end

section
/-! The instruction classes and their operand fields (R101 to R103). -/

namespace Sys2Proof.Proofs

/-- Settles O3, by the priority chain of R101, which is the decoder's own. -/
theorem classesByTopBits : Obligations.ClassesByTopBits := by
  intro w
  split_ifs with hlit halu hcall hzbranch
  · exact ⟨_, decodeWith_lit _ hlit⟩
  · exact ⟨_, _, (congrArg Instr.aluForm? (decodeWith_alu _ halu)).trans
      (aluInstr_aluForm? _ (BitVec.isLt _) _)⟩
  · exact ⟨_, by rw [decode, decodeWith, if_neg hlit, if_neg halu, if_pos hcall]⟩
  · exact ⟨_, by rw [decode, decodeWith, if_neg hlit, if_neg halu, if_neg hcall, if_pos hzbranch]⟩
  · exact ⟨_, by rw [decode, decodeWith, if_neg hlit, if_neg halu, if_neg hcall, if_neg hzbranch]⟩

/-- The class mask of R101 drops the low 13 bits: it is a shift down and up again. -/
theorem and_classMask (w : Word) : w &&& 0xE000#16 = (w >>> 13) <<< 13 := by
  refine BitVec.eq_of_getLsbD_eq fun k hk => ?_
  have hmask : (0xE000#16).getLsbD k = decide (13 ≤ k) := by
    interval_cases k <;> rfl
  rw [BitVec.getLsbD_and, hmask, BitVec.getLsbD_shiftLeft, BitVec.getLsbD_ushiftRight]
  by_cases h13 : 13 ≤ k
  · simp [h13, hk]
  · simp [h13]

/-- The class bits of a word do not see an operand below `0x2000` (R103). -/
theorem classBits_ofNat (c : Nat) {a : Nat} (ha : a < 8192) :
    BitVec.ofNat 16 (c * 8192 + a) &&& 0xE000#16 = BitVec.ofNat 16 (c * 8192) := by
  rw [and_classMask]
  apply BitVec.eq_of_toNat_eq
  simp only [BitVec.toNat_shiftLeft, BitVec.toNat_ushiftRight, BitVec.toNat_ofNat,
    Nat.shiftRight_eq_div_pow, Nat.shiftLeft_eq]
  omega

/-- The low field of `k` bits holds what is added to a multiple of `2 ^ k` (R102, R103). -/
theorem lowField_ofNat {k : Nat} (hk : k ≤ 16) (c n : Nat) :
    (BitVec.ofNat 16 (c * 2 ^ k + n)).extractLsb' 0 k = BitVec.ofNat k n := by
  rw [← BitVec.setWidth_eq_extractLsb' hk, BitVec.setWidth_ofNat_of_le hk]
  apply BitVec.eq_of_toNat_eq
  rw [BitVec.toNat_ofNat, BitVec.toNat_ofNat, Nat.mul_add_mod_self_right]

/-- Bit 15 is set in a word from `0x8000` up (R102). -/
theorem getLsbD_literal {n : Nat} (hn : n < 32768) :
    (BitVec.ofNat 16 (0x8000 + n)).getLsbD 15 = true := by
  rw [BitVec.getLsbD_ofNat, Nat.testBit_two_pow_add_eq n 15, Nat.testBit_lt_two_pow hn]
  rfl

/-- Settles O4: each word's class bits select the class, and its low field is the operand. -/
theorem literalAndAddressFormats : Obligations.LiteralAndAddressFormats := by
  refine ⟨fun n hn => ?lit, fun a ha => ?call, fun a ha => ?zbranch, fun a ha => ?branch⟩
  case lit =>
    exact (decodeWith_lit _ (getLsbD_literal hn)).trans
      (congrArg Instr.lit (lowField_ofNat (k := 15) (by decide) 1 n))
  case call =>
    exact (decodeWith_call _ (classBits_ofNat 2 ha)).trans
      (congrArg Instr.call (lowField_ofNat (k := 13) (by decide) 2 a))
  case zbranch =>
    exact (decodeWith_zbranch _ (classBits_ofNat 1 ha)).trans
      (congrArg Instr.zbranch (lowField_ofNat (k := 13) (by decide) 1 a))
  case branch =>
    have hclass : BitVec.ofNat 16 a &&& 0xE000#16 = 0#16 := by
      simpa using classBits_ofNat 0 ha
    have hfield : (BitVec.ofNat 16 a).extractLsb' 0 13 = BitVec.ofNat 13 a := by
      simpa using lowField_ofNat (k := 13) (by decide) 0 a
    exact (decodeWith_branch _ hclass).trans (congrArg Instr.branch hfield)

end Sys2Proof.Proofs
end

section
/-! The literal, the call and the two branches (R143, R150, R152, R154): each one's word, and what it does
to the state. -/

open Sys2Proof.Machine

namespace Sys2Proof.Proofs

/-- A word of class bits above a `k`-bit operand is, as a number, their sum (R102, R103). -/
theorem toNat_classBits_or_operand {k : Nat} (hk : k ≤ 16) (c : Nat) (hc : 2 ^ k * c < 2 ^ 16)
    (x : BitVec k) : (BitVec.ofNat 16 (2 ^ k * c) ||| x.setWidth 16).toNat = 2 ^ k * c + x.toNat := by
  rw [BitVec.toNat_or, BitVec.toNat_ofNat, Nat.mod_eq_of_lt hc, BitVec.toNat_setWidth_of_le hk,
    Nat.two_pow_add_eq_or_of_lt x.isLt]

theorem encode_lit_toNat (n : BitVec 15) : (encode (.lit n)).toNat = 0x8000 + n.toNat :=
  toNat_classBits_or_operand (by decide) 1 (by decide) n

theorem encode_call_toNat (a : BitVec 13) : (encode (.call a)).toNat = 0x4000 + a.toNat :=
  toNat_classBits_or_operand (by decide) 2 (by decide) a

theorem encode_zbranch_toNat (a : BitVec 13) : (encode (.zbranch a)).toNat = 0x2000 + a.toNat :=
  toNat_classBits_or_operand (by decide) 1 (by decide) a

theorem encode_branch_toNat (a : BitVec 13) : (encode (.branch a)).toNat = a.toNat :=
  (toNat_classBits_or_operand (by decide) 0 (by decide) a).trans (Nat.zero_add _)

/-- The byte address of a word index is its double modulo 2^16 (R13, R61). -/
theorem w2b_eq_ofNat (w : Word) : w2b w = BitVec.ofNat 16 (w.toNat * 2) := by
  apply BitVec.eq_of_toNat_eq
  rw [w2b_toNat, BitVec.toNat_ofNat]

/-- A byte after a cell is written: that of the cell's new value, or the byte as it was. -/
theorem readByte_writeCell_byteOf (m : Memory) (k a : Nat) (v : Word) :
    (m.writeCell k v).readByte a = if a / 2 = k then byteOf v a else m.readByte a :=
  Memory.readByte_writeCell m k a v

/-- Settles O23: the push writes the one cell at the new `sp`, and no other operation of `lit` stores. -/
theorem literalPushesOldTop : Obligations.LiteralPushesOldTop := by
  intro n s
  refine ⟨encode_lit_toNat n, _, exec_lit s n, rfl, rfl, rfl, rfl, fun a => ?_, ?_⟩
  · exact readByte_writeCell_byteOf s.mem (idx (s.sp + 1)) a s.tos
  · exact ⟨rfl, rfl, rfl, rfl, rfl, rfl⟩

/-- Settles O24: the push writes the one cell at the new `rp`, with the next word's byte address. -/
theorem callPushesReturnAddress : Obligations.CallPushesReturnAddress := by
  intro a s
  refine ⟨encode_call_toNat a, _, exec_call s a, rfl, rfl, rfl, rfl, fun b => ?_, ?_⟩
  · rw [← w2b_eq_ofNat]
    exact readByte_writeCell_byteOf s.mem (idx (s.rp + 1)) b (w2b (s.pc + 1))
  · exact ⟨rfl, rfl, rfl, rfl, rfl, rfl⟩

/-- Settles O25: the old top selects `pc`, and the pop follows on both paths. -/
theorem conditionalBranchPopsOnBothPaths : Obligations.ConditionalBranchPopsOnBothPaths := by
  intro a s
  refine ⟨encode_zbranch_toNat a, ?_⟩
  rw [exec_zbranch]
  by_cases htos : s.tos = 0
  · rw [if_pos htos, if_pos htos]
    rfl
  · rw [if_neg htos, if_neg htos]
    rfl

/-- Settles O26: `branch` sets `pc` to its zero-extended address field (R107) and does nothing else. -/
theorem branchSetsPcAlone : Obligations.BranchSetsPcAlone := fun a s =>
  ⟨encode_branch_toNat a, exec_branch s a⟩

end Sys2Proof.Proofs
end

section
/-! The decoder reads back every word that the encoder writes, under every layout without overlap, and under
the default layout the encoder writes back every word (R101 to R105, D1). -/

namespace Sys2Proof.Proofs

/-! ### An ALU word as the union of its fields -/

/-- One field of an ALU word: its lowest bit, its width and what it holds. -/
structure AluField where
  pos : Nat
  width : Nat
  value : BitVec width

/-- What a field puts at bit `k` of the word. -/
def AluField.bit (F : AluField) (k : Nat) : Bool := decide (F.pos ≤ k) && F.value.getLsbD (k - F.pos)

/-- The seven fields of an ALU word, in the order of the layout's spans (R104). -/
def aluFieldList (L : AluLayout) (op : BitVec 5) (f : AluFields) : List AluField :=
  [⟨L.op, 5, op⟩, ⟨L.t2n, 1, BitVec.ofBool f.t2n⟩, ⟨L.t2r, 1, BitVec.ofBool f.t2r⟩,
    ⟨L.n2a, 1, BitVec.ofBool f.n2a⟩, ⟨L.r2p, 1, BitVec.ofBool f.r2p⟩, ⟨L.rd, 2, f.rd.bits⟩,
    ⟨L.dd, 2, f.dd.bits⟩]

theorem aluFieldList_spans (L : AluLayout) (op : BitVec 5) (f : AluFields) :
    (aluFieldList L op f).map (fun F => (F.pos, F.width)) = L.spans := rfl

theorem AluField.bit_add (F : AluField) (j : Nat) : F.bit (F.pos + j) = F.value.getLsbD j := by
  simp [AluField.bit]

/-- A field puts nothing outside its own bits. -/
theorem AluField.lt_of_bit {F : AluField} {k : Nat} (h : F.bit k = true) :
    F.pos ≤ k ∧ k < F.pos + F.width := by
  simp only [AluField.bit, Bool.and_eq_true, decide_eq_true_eq] at h
  have := BitVec.lt_of_getLsbD h.2
  omega

theorem AluField.bit_flag (b : Bool) (p k : Nat) :
    AluField.bit ⟨p, 1, BitVec.ofBool b⟩ k = (b && decide (k = p)) := by
  rw [Bool.eq_iff_iff]
  simp only [AluField.bit, BitVec.getLsbD_ofBool, Bool.and_eq_true, decide_eq_true_eq,
    Nat.sub_eq_zero_iff_le]
  exact ⟨fun ⟨hle, hge, hb⟩ => ⟨hb, Nat.le_antisymm hge hle⟩, fun ⟨hb, heq⟩ => ⟨heq.ge, heq.le, hb⟩⟩

theorem getLsbD_encodeAlu_eq_any (L : AluLayout) (op : BitVec 5) (f : AluFields) {k : Nat} (hk : k < 16) :
    (encodeAlu L op f).getLsbD k =
      ((0x6000#16).getLsbD k || (aluFieldList L op f).any (fun F => F.bit k)) := by
  rw [getLsbD_encodeAlu L op f k hk]
  simp only [aluFieldList, List.any_cons, List.any_nil, AluField.bit_flag, Bool.or_false, Bool.or_assoc]
  rfl

/-! ### Reading a field back -/

section
variable {L : AluLayout} (hL : L.wellFormed = true) (op : BitVec 5) (f : AluFields)
include hL

theorem aluField_le {F : AluField} (hF : F ∈ aluFieldList L op f) : F.pos + F.width ≤ 13 := by
  rw [AluLayout.wellFormed, Bool.and_eq_true, List.all_eq_true] at hL
  simpa using hL.1 (F.pos, F.width) (List.mem_map_of_mem (f := fun F => (F.pos, F.width)) hF)

/-- Two fields of a well-formed layout share no bit (R104). -/
theorem aluField_apart {F G : AluField} (hF : F ∈ aluFieldList L op f) (hG : G ∈ aluFieldList L op f)
    (hne : F ≠ G) : F.pos + F.width ≤ G.pos ∨ G.pos + G.width ≤ F.pos := by
  rw [AluLayout.wellFormed, Bool.and_eq_true, decide_eq_true_eq, ← aluFieldList_spans L op f,
    List.pairwise_map] at hL
  have hsymm : Std.Symm (fun F G : AluField => F.pos + F.width ≤ G.pos ∨ G.pos + G.width ≤ F.pos) :=
    ⟨fun _ _ => Or.symm⟩
  exact hL.2.forall hF hG hne

/-- Each bit of a field reads back: no other field and no class bit lies there. -/
theorem getLsbD_encodeAlu_field {F : AluField} (hF : F ∈ aluFieldList L op f) {j : Nat}
    (hj : j < F.width) : (encodeAlu L op f).getLsbD (F.pos + j) = F.value.getLsbD j := by
  have hlt : F.pos + j < 13 := by have := aluField_le hL op f hF; omega
  have hclass : (0x6000#16).getLsbD (F.pos + j) = false := by
    generalize F.pos + j = k at hlt
    interval_cases k <;> rfl
  rw [getLsbD_encodeAlu_eq_any L op f (by omega), hclass, Bool.false_or, ← F.bit_add, Bool.eq_iff_iff,
    List.any_eq_true]
  refine ⟨?_, fun hbit => ⟨F, hF, hbit⟩⟩
  rintro ⟨G, hG, hbit⟩
  by_cases hne : F = G
  · rwa [hne] at hbit ⊢
  · have hapart := aluField_apart hL op f hF hG hne
    have hin := AluField.lt_of_bit hbit
    omega

theorem encodeAlu_extract_field {F : AluField} (hF : F ∈ aluFieldList L op f) :
    (encodeAlu L op f).extractLsb' F.pos F.width = F.value := by
  refine BitVec.eq_of_getLsbD_eq fun j hj => ?_
  rw [BitVec.getLsbD_extractLsb', getLsbD_encodeAlu_field hL op f hF hj]
  simp [hj]

theorem getLsbD_encodeAlu_flag {p : Nat} {b : Bool}
    (hF : ⟨p, 1, BitVec.ofBool b⟩ ∈ aluFieldList L op f) : (encodeAlu L op f).getLsbD p = b := by
  simpa using getLsbD_encodeAlu_field hL op f hF (j := 0) Nat.one_pos

/-- Every field lies below the class bits, which are the ALU class's (R101). -/
theorem encodeAlu_class : encodeAlu L op f &&& 0xE000#16 = 0x6000#16 := by
  refine BitVec.eq_of_getLsbD_eq fun k hk => ?_
  rw [BitVec.getLsbD_and, getLsbD_encodeAlu_eq_any L op f hk]
  by_cases h13 : k < 13
  · interval_cases k <;> simp
  · have hnone : (aluFieldList L op f).any (fun F => F.bit k) = false := by
      rw [List.any_eq_false]
      intro F hF hbit
      have hle := aluField_le hL op f hF
      have hin := AluField.lt_of_bit hbit
      omega
    rw [hnone, Bool.or_false]
    interval_cases k <;> simp_all

theorem aluFieldsOf_encodeAlu : aluFieldsOf L (encodeAlu L op f) = f := by
  have hrd := encodeAlu_extract_field hL op f (F := ⟨L.rd, 2, f.rd.bits⟩) (by simp [aluFieldList])
  have hdd := encodeAlu_extract_field hL op f (F := ⟨L.dd, 2, f.dd.bits⟩) (by simp [aluFieldList])
  dsimp only at hrd hdd
  rw [aluFieldsOf, hrd, hdd, Delta.ofBits_bits, Delta.ofBits_bits,
    getLsbD_encodeAlu_flag hL op f (b := f.t2n) (by simp [aluFieldList]),
    getLsbD_encodeAlu_flag hL op f (b := f.t2r) (by simp [aluFieldList]),
    getLsbD_encodeAlu_flag hL op f (b := f.n2a) (by simp [aluFieldList]),
    getLsbD_encodeAlu_flag hL op f (b := f.r2p) (by simp [aluFieldList])]

theorem decodeWith_encodeAlu : decodeWith L (encodeAlu L op f) = aluInstr op.toNat f := by
  have hop := encodeAlu_extract_field hL op f (F := ⟨L.op, 5, op⟩) (by simp [aluFieldList])
  dsimp only at hop
  rw [decodeWith_alu L (encodeAlu_class hL op f), hop, aluFieldsOf_encodeAlu hL]

end

/-! ### The four classes without ALU fields -/

section
variable (L : AluLayout)

theorem eq_ofNat_of_toNat_eq {w : Word} {n : Nat} (h : w.toNat = n) : w = BitVec.ofNat 16 n := by
  rw [← h, BitVec.ofNat_toNat, BitVec.setWidth_eq]

theorem operand_ofNat {k : Nat} (hk : k ≤ 16) (c : Nat) (x : BitVec k) :
    (BitVec.ofNat 16 (c * 2 ^ k + x.toNat)).extractLsb' 0 k = x := by
  rw [lowField_ofNat hk, BitVec.ofNat_toNat, BitVec.setWidth_eq]

theorem decodeWith_encode_lit (n : BitVec 15) : decodeWith L (encode (.lit n)) = .lit n := by
  rw [eq_ofNat_of_toNat_eq (encode_lit_toNat n), decodeWith_lit L (getLsbD_literal n.isLt)]
  exact congrArg Instr.lit (operand_ofNat (by decide) 1 n)

theorem decodeWith_encode_call (a : BitVec 13) : decodeWith L (encode (.call a)) = .call a := by
  rw [eq_ofNat_of_toNat_eq (encode_call_toNat a), decodeWith_call L (classBits_ofNat 2 a.isLt)]
  exact congrArg Instr.call (operand_ofNat (by decide) 2 a)

theorem decodeWith_encode_zbranch (a : BitVec 13) : decodeWith L (encode (.zbranch a)) = .zbranch a := by
  rw [eq_ofNat_of_toNat_eq (encode_zbranch_toNat a), decodeWith_zbranch L (classBits_ofNat 1 a.isLt)]
  exact congrArg Instr.zbranch (operand_ofNat (by decide) 1 a)

theorem decodeWith_encode_branch (a : BitVec 13) : decodeWith L (encode (.branch a)) = .branch a := by
  rw [eq_ofNat_of_toNat_eq ((encode_branch_toNat a).trans (Nat.zero_add _).symm),
    decodeWith_branch L (classBits_ofNat 0 a.isLt)]
  exact congrArg Instr.branch (operand_ofNat (by decide) 0 a)

end

/-! ### Both directions -/

/-- The five classes as the decoder tells them apart: four constructors, and the ALU words by their opcode
and fields. -/
theorem instr_class (i : Instr) : (∃ n, i = .lit n) ∨ (∃ a, i = .call a) ∨ (∃ a, i = .zbranch a) ∨
    (∃ a, i = .branch a) ∨ ∃ op f, i.aluForm? = some (op, f) := by
  cases i with
  | lit n => exact .inl ⟨n, rfl⟩
  | call a => exact .inr (.inl ⟨a, rfl⟩)
  | zbranch a => exact .inr (.inr (.inl ⟨a, rfl⟩))
  | branch a => exact .inr (.inr (.inr (.inl ⟨a, rfl⟩)))
  | _ f => exact .inr (.inr (.inr (.inr ⟨_, f, rfl⟩)))

/-- Settles O2: class by class, each field of a word reads back because no other field shares a bit. -/
theorem everyLayoutReadsBackItsWords : Obligations.EveryLayoutReadsBackItsWords := by
  intro L hL i
  obtain ⟨n, rfl⟩ | ⟨a, rfl⟩ | ⟨a, rfl⟩ | ⟨a, rfl⟩ | ⟨op, f, halu⟩ := instr_class i
  · exact decodeWith_encode_lit L n
  · exact decodeWith_encode_call L a
  · exact decodeWith_encode_zbranch L a
  · exact decodeWith_encode_branch L a
  · obtain ⟨rfl, hop⟩ := aluInstr_of_aluForm? halu
    rw [encodeWith_aluInstr L op hop, decodeWith_encodeAlu hL, BitVec.toNat_ofNat, Nat.mod_eq_of_lt hop]

/-- An ALU word is put together again from the fields read out of it. -/
theorem encodeAlu_fields {w : Word} (h : w &&& 0xE000#16 = 0x6000#16) :
    encodeAlu Config.aluLayout (w.extractLsb' 8 5) (aluFieldsOf Config.aluLayout w) = w := by
  refine BitVec.eq_of_getLsbD_eq fun k hk => ?_
  have hclass := getLsbD_of_class h k
  rw [getLsbD_encodeAlu _ _ _ _ hk]
  simp only [aluFieldsOf, Delta.bits_ofBits, Config.aluLayout]
  interval_cases k <;> simp_all

/-- The class bits of a word and its low field make it up. -/
theorem classBits_or_lowField {w c : Word} (h : w &&& 0xE000#16 = c) :
    c ||| (w.extractLsb' 0 13).setWidth 16 = w := by
  subst h
  refine BitVec.eq_of_getLsbD_eq fun k hk => ?_
  interval_cases k <;> simp

theorem literal_or_payload {w : Word} (h : w.getLsbD 15 = true) :
    0x8000#16 ||| (w.extractLsb' 0 15).setWidth 16 = w := by
  refine BitVec.eq_of_getLsbD_eq fun k hk => ?_
  interval_cases k <;> simp_all

theorem encode_decode (w : Word) : encode (decode w) = w := by
  obtain hlit | halu | hcall | hzbranch | hbranch := word_class w
  · exact (congrArg encode (decodeWith_lit _ hlit)).trans (literal_or_payload hlit)
  · rw [decode, decodeWith_alu _ halu, encode, encodeWith_aluInstr _ _ (BitVec.isLt _), BitVec.ofNat_toNat,
      BitVec.setWidth_eq]
    exact encodeAlu_fields halu
  · exact (congrArg encode (decodeWith_call _ hcall)).trans (classBits_or_lowField hcall)
  · exact (congrArg encode (decodeWith_zbranch _ hzbranch)).trans (classBits_or_lowField hzbranch)
  · exact (congrArg encode (decodeWith_branch _ hbranch)).trans (classBits_or_lowField hbranch)

/-- Settles O1: the default layout reads back its words, and each word is its class bits and its fields. -/
theorem decodeAndEncodeAreInverse : Obligations.DecodeAndEncodeAreInverse :=
  ⟨everyLayoutReadsBackItsWords Config.aluLayout (by decide), encode_decode⟩

end Sys2Proof.Proofs
end

section
/-! What a step does to the devices and how it ends (R264 to R268), and the invariant that every step keeps. -/

open Sys2Proof.Machine

namespace Sys2Proof.Proofs

/-! ### The devices -/

/-- The streams, the block file and the two counts of saves are as they were. -/
structure SameDevices (s t : State) : Prop where
  input : t.input = s.input
  output : t.output = s.output
  blockFile : t.blockFile = s.blockFile
  saves : t.saves = s.saves
  diagnostics : t.diagnostics = s.diagnostics

theorem aluSteps_sameDevices (s : State) (f : AluFields) (v : Word) : SameDevices s (s.aluSteps f v) := by
  constructor <;> simp

/-- `0branch` as one update of `pc` and the pop on either path (R152). -/
theorem zbranch_eq_setPc (s : State) (a : BitVec 13) :
    (if s.tos = 0 then s.setPc (targetOf a) else s.advance).popData =
      (s.setPc (if s.tos = 0 then targetOf a else s.pc + 1)).popData := by
  split <;> rfl

/-- The devices after an instruction: as they were, or as the one act of its opcode leaves them. -/
theorem exec_devices {i : Instr} {s t : State} (h : exec i s = .next t) :
    SameDevices s t ∨
    (∃ f b, i = .aluRx f ∧ s.input.answer = .byte b ∧ SameDevices s.consumeByte t) ∨
    (∃ f, i = .aluTx f ∧ SameDevices (s.outWrite (lowByte s.tos)) t) ∨
    (∃ f, i = .aluSave f ∧ SameDevices (s.save 32768) t) := by
  obtain ⟨n, -, rfl⟩ | ⟨a, -, rfl⟩ | ⟨a, -, rfl⟩ | ⟨a, -, rfl⟩ | ⟨f, op, v, -, -, rfl⟩ |
    ⟨f, hsave, rfl⟩ | ⟨f, htx, rfl⟩ | ⟨f, b, hrx, hb, rfl⟩ | ⟨f, -, -, rfl⟩ | ⟨f, -, -, rfl⟩ |
    ⟨f, -, rfl⟩ := exec_next h
  · exact .inl ⟨rfl, rfl, rfl, rfl, rfl⟩
  · exact .inl ⟨rfl, rfl, rfl, rfl, rfl⟩
  · rw [zbranch_eq_setPc]
    exact .inl ⟨rfl, rfl, rfl, rfl, rfl⟩
  · exact .inl ⟨rfl, rfl, rfl, rfl, rfl⟩
  · exact .inl (aluSteps_sameDevices s f v)
  · exact .inr (.inr (.inr ⟨f, hsave, aluSteps_sameDevices _ f _⟩))
  · exact .inr (.inr (.inl ⟨f, htx, aluSteps_sameDevices _ f _⟩))
  · exact .inr (.inl ⟨f, b, hrx, hb, aluSteps_sameDevices _ f _⟩)
  · exact .inl ⟨rfl, rfl, rfl, rfl, rfl⟩
  · exact .inl ⟨rfl, rfl, rfl, rfl, rfl⟩
  · exact .inl ⟨rfl, rfl, rfl, rfl, rfl⟩

/-- Settles O51: each device changes in its own opcode's case alone. -/
theorem onlyTheirOpcodesReachTheDevices : Obligations.OnlyTheirOpcodesReachTheDevices := by
  intro i s t h
  obtain hsame | ⟨f, b, rfl, -, hrx⟩ | ⟨f, rfl, htx⟩ | ⟨f, rfl, hsave⟩ := exec_devices h
  · exact ⟨fun hne => absurd hsame.input hne, fun hne => absurd hsame.output hne, fun hne => by
      simp [hsame.blockFile, hsame.saves, hsame.diagnostics] at hne⟩
  · exact ⟨fun _ => ⟨f, rfl⟩, fun hne => absurd hrx.output hne, fun hne => by
      simp [hrx.blockFile, hrx.saves, hrx.diagnostics] at hne⟩
  · exact ⟨fun hne => absurd htx.input hne, fun _ => ⟨f, rfl⟩, fun hne => by
      simp [htx.blockFile, htx.saves, htx.diagnostics] at hne⟩
  · exact ⟨fun hne => absurd hsave.input hne, fun hne => absurd hsave.output hne, fun _ => ⟨f, rfl⟩⟩

/-! ### The registers and the image -/

/-- The registers and the image after an instruction, by its class: an ALU word ran steps a to f, or it
stopped or waits and left them alone (R140, R177). -/
theorem exec_core {i : Instr} {s t : State} (h : exec i s = .next t) :
    (∃ n, i = .lit n ∧ t = ((s.pushData s.tos).setTos (litValue n)).advance) ∨
    (∃ a, i = .call a ∧ t = (s.pushReturn (w2b (s.pc + 1))).setPc (targetOf a)) ∨
    (∃ a, i = .zbranch a ∧ t = (s.setPc (if s.tos = 0 then targetOf a else s.pc + 1)).popData) ∨
    (∃ a, i = .branch a ∧ t = s.setPc (targetOf a)) ∨
    (∃ op f s' v, i.aluForm? = some (op, f) ∧ op ≠ 21 ∧ SameCore s s' ∧ t = s'.aluSteps f v) ∨
    (i.aluForm?.isSome = true ∧ SameCore s t ∧ (t.canStep = false ∨ t.status = .waiting)) := by
  obtain hlit | hcall | ⟨a, rfl, rfl⟩ | hbranch | ⟨f, op, v, halu, hop, rfl⟩ | ⟨f, rfl, rfl⟩ |
    ⟨f, rfl, rfl⟩ | ⟨f, b, rfl, -, rfl⟩ | ⟨f, rfl, -, rfl⟩ | ⟨f, rfl, -, rfl⟩ | ⟨f, rfl, rfl⟩ := exec_next h
  · exact .inl hlit
  · exact .inr (.inl hcall)
  · exact .inr (.inr (.inl ⟨a, rfl, zbranch_eq_setPc s a⟩))
  · exact .inr (.inr (.inr (.inl hbranch)))
  · exact .inr (.inr (.inr (.inr (.inl
      ⟨op, f, s, v, halu, by omega, ⟨rfl, rfl, rfl, rfl, rfl⟩, rfl⟩))))
  · exact .inr (.inr (.inr (.inr (.inl ⟨18, f, _, _, rfl, by decide, s.save_sameCore _, rfl⟩))))
  · exact .inr (.inr (.inr (.inr (.inl ⟨19, f, _, _, rfl, by decide, s.outWrite_sameCore _, rfl⟩))))
  · exact .inr (.inr (.inr (.inr (.inl ⟨20, f, _, _, rfl, by decide, s.consumeByte_sameCore, rfl⟩))))
  · exact .inr (.inr (.inr (.inr (.inr ⟨rfl, ⟨rfl, rfl, rfl, rfl, rfl⟩, .inl rfl⟩))))
  · exact .inr (.inr (.inr (.inr (.inr ⟨rfl, ⟨rfl, rfl, rfl, rfl, rfl⟩, .inr rfl⟩))))
  · exact .inr (.inr (.inr (.inr (.inr ⟨rfl, ⟨rfl, rfl, rfl, rfl, rfl⟩, .inl rfl⟩))))

/-- The cells of an ALU word that does not halt are those its flags name (R66, R233). -/
theorem storedCells_of_aluForm? {i : Instr} {op : Nat} {f : AluFields} (h : i.aluForm? = some (op, f))
    (hop : op ≠ 21) (s : State) : storedCells i s = aluStoredCells f s := by
  cases i with
  | lit n => cases h
  | call a => cases h
  | zbranch a => cases h
  | branch a => cases h
  | aluBye g =>
    cases h
    exact absurd rfl hop
  | _ g =>
    cases h
    rfl

theorem readByte_writeCell_of_ne {m : Memory} {k a : Nat} {v : Word} (h : a / 2 ≠ k) :
    (m.writeCell k v).readByte a = m.readByte a := by
  rw [Memory.readByte_writeCell, if_neg h]

/-- Steps a to f leave every byte outside the cells that the flags name. -/
theorem aluMem_readByte_of_not_mem {s : State} {f : AluFields} {a : Nat}
    (h : a / 2 ∉ aluStoredCells f s) : (s.aluMem f).readByte a = s.mem.readByte a := by
  simp only [aluStoredCells, List.mem_append, List.mem_ite_nil_right, List.mem_singleton, not_or] at h
  obtain ⟨⟨hr, hn⟩, ha⟩ := h
  rw [State.aluMem_readByte, if_neg ha, if_neg hn, if_neg hr]

/-- Settles O50: the pushes of a literal and a call, and the stores of steps b to d, are the only writes. -/
theorem onlyListedCellsAreWritten : Obligations.OnlyListedCellsAreWritten := by
  intro i s t h a ha
  obtain ⟨n, rfl, rfl⟩ | ⟨b, rfl, rfl⟩ | ⟨b, rfl, rfl⟩ | ⟨b, rfl, rfl⟩ |
    ⟨op, f, s', v, halu, hop, hcore, rfl⟩ | ⟨-, hcore, -⟩ := exec_core h
  · exact readByte_writeCell_of_ne (List.ne_of_not_mem_cons ha)
  · exact readByte_writeCell_of_ne (List.ne_of_not_mem_cons ha)
  · rfl
  · rfl
  · rw [storedCells_of_aluForm? halu hop] at ha
    rw [State.aluSteps_mem, hcore.aluMem, aluMem_readByte_of_not_mem ha]
  · rw [hcore.mem]

/-- Settles O52, class by class. -/
theorem registersWrittenByClass : Obligations.RegistersWrittenByClass := by
  intro i s t h
  obtain ⟨n, rfl, rfl⟩ | ⟨a, rfl, rfl⟩ | ⟨a, rfl, rfl⟩ | ⟨a, rfl, rfl⟩ |
    ⟨op, f, s', v, halu, -, -, -⟩ | ⟨halu, -, -⟩ := exec_core h
  · exact ⟨fun _ => .inl ⟨n, rfl⟩, fun _ => .inl ⟨n, rfl⟩, fun hrp => absurd rfl hrp⟩
  · exact ⟨fun htos => absurd rfl htos, fun hsp => absurd rfl hsp, fun _ => .inl ⟨a, rfl⟩⟩
  · exact ⟨fun _ => .inr (.inl ⟨a, rfl⟩), fun _ => .inr (.inl ⟨a, rfl⟩), fun hrp => absurd rfl hrp⟩
  · exact ⟨fun htos => absurd rfl htos, fun hsp => absurd rfl hsp, fun hrp => absurd rfl hrp⟩
  · have hsome : i.aluForm?.isSome = true := by rw [halu]; rfl
    exact ⟨fun _ => .inr (.inr hsome), fun _ => .inr (.inr hsome), fun _ => .inr hsome⟩
  · exact ⟨fun _ => .inr (.inr halu), fun _ => .inr (.inr halu), fun _ => .inr halu⟩

/-- An address field reaches the cells below 8192 alone (R37). -/
theorem targetOf_toNat_lt (a : BitVec 13) : (targetOf a).toNat < 8192 := by
  rw [targetOf, BitVec.toNat_setWidth_of_le (by decide)]
  exact a.isLt

/-- A byte address names a word index below 32768 (R38, R60). -/
theorem b2w_toNat_lt (w : Word) : (b2w w).toNat < 32768 := by
  have := w.isLt
  rw [b2w_toNat]
  omega

/-- Settles O53: each class sets `pc` by an address field, a byte address or the next word. -/
theorem reachOfControlTransfers : Obligations.ReachOfControlTransfers := by
  intro i s t h hstep hwait
  obtain ⟨n, rfl, rfl⟩ | ⟨a, rfl, rfl⟩ | ⟨a, rfl, rfl⟩ | ⟨a, rfl, rfl⟩ |
    ⟨op, f, s', v, halu, -, hcore, rfl⟩ | ⟨-, -, hstop⟩ := exec_core h
  · exact .inr (.inr (.inr ⟨.inl ⟨n, rfl⟩, rfl⟩))
  · exact .inl ⟨⟨a, .inl rfl⟩, targetOf_toNat_lt a⟩
  · refine .inr (.inl ⟨⟨a, rfl⟩, ?_⟩)
    rw [State.popData_pc, State.setPc_pc]
    split
    · exact .inl (targetOf_toNat_lt a)
    · exact .inr rfl
  · exact .inl ⟨⟨a, .inr rfl⟩, targetOf_toNat_lt a⟩
  · rw [State.aluSteps_pc]
    cases hr2p : f.r2p
    · exact .inr (.inr (.inr ⟨.inr ⟨op, f, halu, hr2p⟩, by simp [hcore.pc]⟩))
    · exact .inr (.inr (.inl ⟨⟨op, f, halu, hr2p⟩, b2w_toNat_lt _⟩))
  · rcases hstop with hend | hwaits
    · rw [hend] at hstep
      cases hstep
    · exact absurd hwaits hwait

/-! ### How a step ends -/

/-- Every way a step of a run in progress ends (R140): the cases of `exec`, of the fetched instruction. -/
theorem step_cases {s : State} (hs : s.canStep = true) :
    (∃ f, decode s.fetch = .aluBye f ∧ step s = .next (s.halt s.tos)) ∨
    (∃ f, decode s.fetch = .aluRx f ∧ s.input.answer = .eof ∧ step s = .next s.cleanStop) ∨
    (∃ f, decode s.fetch = .aluRx f ∧ s.input.answer = .pending ∧ step s = .next s.wait) ∨
    ((decode s.fetch).wellFormed = false ∧ step s = .fault (.reservedAluOp s.fetch)) ∨
    (∃ t, step s = .next t ∧ t.status = .running) := by
  rw [step_of_canStep hs]
  obtain hbye | heof | hwait | hfault | ⟨t, -, hnext⟩ := exec_cases (decode s.fetch) s.resume
  · exact .inl hbye
  · exact .inr (.inl heof)
  · exact .inr (.inr (.inl hwait))
  · exact .inr (.inr (.inr (.inl hfault)))
  · exact .inr (.inr (.inr (.inr ⟨t, hnext⟩)))

/-- A step that answers a state: it ended the run and changed the status alone, it waits, or it leaves the
run going on. -/
theorem step_next_cases {s t : State} (h : step s = .next t) :
    (∃ f, decode s.fetch = .aluBye f ∧ t = s.halt s.tos) ∨
    (∃ f, decode s.fetch = .aluRx f ∧ s.input.answer = .eof ∧ t = s.cleanStop) ∨
    (∃ f, decode s.fetch = .aluRx f ∧ s.input.answer = .pending ∧ t = s.wait) ∨ t.status = .running := by
  obtain ⟨f, hf, hstep⟩ | ⟨f, hf, ha, hstep⟩ | ⟨f, hf, ha, hstep⟩ | ⟨-, hstep⟩ | ⟨u, hstep, hu⟩ :=
    step_cases (step_next h).1 <;> cases h.symm.trans hstep
  · exact .inl ⟨f, hf, rfl⟩
  · exact .inr (.inl ⟨f, hf, ha, rfl⟩)
  · exact .inr (.inr (.inl ⟨f, hf, ha, rfl⟩))
  · exact .inr (.inr (.inr hu))

theorem step_halted {s t : State} {v : Word} (h : step s = .next t) (ht : t.status = .halted v) :
    (∃ f, decode s.fetch = .aluBye f) ∧ v = s.tos := by
  obtain ⟨f, hf, rfl⟩ | ⟨f, -, -, rfl⟩ | ⟨f, -, -, rfl⟩ | hrun := step_next_cases h
  · exact ⟨⟨f, hf⟩, (RunStatus.halted.inj ht).symm⟩
  · cases ht
  · cases ht
  · cases hrun.symm.trans ht

theorem step_cleanStop {s t : State} (h : step s = .next t) (ht : t.status = .cleanStop) :
    (∃ f, decode s.fetch = .aluRx f) ∧ s.input.answer = .eof := by
  obtain ⟨f, -, rfl⟩ | ⟨f, hf, ha, -⟩ | ⟨f, -, -, rfl⟩ | hrun := step_next_cases h
  · cases ht
  · exact ⟨⟨f, hf⟩, ha⟩
  · cases ht
  · cases hrun.symm.trans ht

/-- A step that waits leaves the state before it but for the status. -/
theorem step_waiting {s t : State} (h : step s = .next t) (ht : t.status = .waiting) :
    (∃ f, decode s.fetch = .aluRx f) ∧ s.input.answer = .pending ∧ t = s.wait := by
  obtain ⟨f, -, rfl⟩ | ⟨f, -, -, rfl⟩ | ⟨f, hf, ha, rfl⟩ | hrun := step_next_cases h
  · cases ht
  · cases ht
  · exact ⟨⟨f, hf⟩, ha, rfl⟩
  · cases hrun.symm.trans ht

theorem step_fault {s : State} {r : Fault} (hs : s.canStep = true) (h : step s = .fault r) :
    r = .reservedAluOp s.fetch ∧ (decode s.fetch).wellFormed = false := by
  obtain ⟨_, -, hstep⟩ | ⟨_, -, -, hstep⟩ | ⟨_, -, -, hstep⟩ | ⟨hwf, hstep⟩ | ⟨_, hstep, -⟩ :=
    step_cases hs <;> cases h.symm.trans hstep
  exact ⟨rfl, hwf⟩

theorem step_ne_refused {s : State} (hs : s.canStep = true) (r : Refusal) : step s ≠ .refused r := by
  intro h
  obtain ⟨_, -, hstep⟩ | ⟨_, -, -, hstep⟩ | ⟨_, -, -, hstep⟩ | ⟨-, hstep⟩ | ⟨_, hstep, -⟩ :=
    step_cases hs <;> cases h.symm.trans hstep

/-- Settles O18, outcome by outcome from the cases of a step. -/
theorem terminalConditions : Obligations.TerminalConditions := fun _ hs =>
  ⟨fun _ _ => step_halted, fun _ => step_cleanStop,
    fun _ h ht => ⟨(step_waiting h ht).1, (step_waiting h ht).2.1⟩,
    fun _ => step_fault hs, step_ne_refused hs⟩

/-- Settles O19: only the halt and the clean stop end a run by a state, and both set the status alone. -/
theorem stopsArePrecise : Obligations.StopsArePrecise := by
  intro s t h ht
  obtain ⟨_, -, rfl⟩ | ⟨_, -, -, rfl⟩ | ⟨_, -, -, rfl⟩ | hrun := step_next_cases h
  · rfl
  · rfl
  · cases ht
  · exact absurd hrun (State.canStep_eq_false_iff.mp ht).1

/-! ### The invariant -/

/-- Every store goes to a cell of the image, so the canonical form stays. -/
theorem exec_mem_wf {i : Instr} {s t : State} (h : exec i s = .next t) (hs : s.mem.wf = true) :
    t.mem.wf = true := by
  obtain ⟨n, -, rfl⟩ | ⟨a, -, rfl⟩ | ⟨a, -, rfl⟩ | ⟨a, -, rfl⟩ | ⟨op, f, s', v, -, -, hcore, rfl⟩ |
    ⟨-, hcore, -⟩ := exec_core h
  · exact Memory.writeCell_wf hs (idx_lt _) _
  · exact Memory.writeCell_wf hs (idx_lt _) _
  · exact hs
  · exact hs
  · rw [State.aluSteps_mem, hcore.aluMem]
    exact s.aluMem_wf f hs
  · rwa [hcore.mem]

/-- The position passes one byte at most, and only a byte that has been supplied. -/
theorem exec_pos_le {i : Instr} {s t : State} (h : exec i s = .next t)
    (hs : s.input.pos ≤ s.input.bytes.length) : t.input.pos ≤ t.input.bytes.length := by
  obtain hsame | ⟨f, b, -, hb, hrx⟩ | ⟨f, -, htx⟩ | ⟨f, -, hsave⟩ := exec_devices h
  · rwa [hsame.input]
  · rw [hrx.input]
    exact (List.getElem?_eq_some_iff.mp (InStream.answer_eq_byte.mp hb)).1
  · rwa [htx.input]
  · rwa [hsave.input]

/-- Settles O48: the image and the position by what `exec` does to them, and the wait by the cases of a
step. -/
theorem everyStepKeepsTheInvariant : Obligations.EveryStepKeepsTheInvariant := by
  intro s t hs h
  refine ⟨exec_mem_wf (step_next h).2 hs.mem_wf, exec_pos_le (step_next h).2 hs.pos_le, fun ht => ?_⟩
  obtain ⟨hrx, hpending, rfl⟩ := step_waiting h ht
  exact ⟨hrx, hpending⟩

/-- Settles O49: run entry keeps the image, takes the host's stream and leaves the machine running. -/
theorem resetMeetsTheInvariant : Obligations.ResetMeetsTheInvariant := by
  refine ⟨⟨Memory.nil_wf, le_rfl, fun h => by cases h⟩, fun s t i o hwf hpos h => ?_⟩
  cases hs : s.canStep
  · cases (State.enterRun_of_not_canStep i o hs).symm.trans h
    exact ⟨hwf, hpos, fun hw => by cases hw⟩
  · cases (State.enterRun_of_canStep i o hs).symm.trans h

end Sys2Proof.Proofs
end

section
/-! Steps a to f of the ALU words that run to their end (R170 to R178): what holds of every opcode, and what
follows where stores and a return meet. -/

open Sys2Proof.Machine

namespace Sys2Proof.Proofs

/-! ### Address conversions -/

theorem b2w_w2b_toNat (w : Word) : (b2w (w2b w)).toNat = w.toNat % 32768 := by
  rw [b2w_toNat, w2b_toNat]
  omega

theorem b2w_w2b_of_lt {w : Word} (h : w.toNat < 32768) : b2w (w2b w) = w :=
  BitVec.eq_of_toNat_eq ((b2w_w2b_toNat w).trans (Nat.mod_eq_of_lt h))

theorem b2w_w2b_of_le {w : Word} (h : 32768 ≤ w.toNat) : b2w (w2b w) = w - 32768 := by
  have hle : (32768 : Word) ≤ w := h
  apply BitVec.eq_of_toNat_eq
  rw [b2w_w2b_toNat, BitVec.toNat_sub_of_le hle, Nat.mod_eq_sub_mod h]
  exact Nat.mod_eq_of_lt (Nat.sub_lt_left_of_lt_add h w.isLt)

/-- The round trip keeps the cell, though it loses bit 15 of the word index (R68). -/
theorem idx_b2w_w2b (w : Word) : idx (b2w (w2b w)) = idx w := by
  rw [idx_eq, b2w_w2b_toNat, Nat.mod_mod, idx_eq]

/-- Settles O10: halving and doubling, and a cell index is the remainder by 2^15. -/
theorem addressConversions : Obligations.AddressConversions := by
  refine ⟨fun a => ⟨b2w_toNat a, idx_b2w a⟩, w2b_toNat, fun w => b2w_w2b_of_lt,
    fun w h => ⟨b2w_w2b_of_le h, idx_b2w_w2b w⟩, fun w => ?_⟩
  rw [BitVec.extractLsb'_toNat, Nat.shiftRight_zero]
  rfl

/-! ### Pushes -/

theorem readCell_pushData (s : State) (v w : Word) :
    (s.pushData v).readCell w = if idx w = idx (s.sp + 1) then v else s.readCell w :=
  (s.setSp (s.sp + 1)).readCell_writeCell (s.sp + 1) w v

theorem readCell_pushReturn (s : State) (v w : Word) :
    (s.pushReturn v).readCell w = if idx w = idx (s.rp + 1) then v else s.readCell w :=
  (s.setRp (s.rp + 1)).readCell_writeCell (s.rp + 1) w v

/-- A literal leaves the old top in the cell at the new `sp` (R143). -/
theorem readCell_lit (s : State) (v : Word) {w : Word} (hw : idx w = idx (s.sp + 1)) :
    (((s.pushData s.tos).setTos v).advance).readCell w = s.tos := by
  rw [State.advance, State.setPc_readCell, State.setTos_readCell, readCell_pushData, if_pos hw]

/-- A call leaves the return address in the cell at the new `rp` (R150). -/
theorem readCell_call (s : State) (v : Word) {w : Word} (hw : idx w = idx (s.rp + 1)) :
    ((s.pushReturn (w2b (s.pc + 1))).setPc v).readCell w = w2b (s.pc + 1) := by
  rw [State.setPc_readCell, readCell_pushReturn, if_pos hw]

/-! ### The common sequence -/

/-- Settles O28: an opcode that runs to its end ends in steps a to f, from the same registers and image. -/
theorem aluCommonSequence : Obligations.AluCommonSequence := by
  intro i op f s halu hruns
  obtain ⟨s', v, hv, hexec, hcore, hstatus, hinput⟩ := exec_newTop s halu hruns
  refine ⟨_, v, hv, hexec, (s'.aluSteps_effect f v).of_sameCore hcore, ?_, fun hop => ?_⟩
  · rw [State.aluSteps_status, hstatus]
  · rw [State.aluSteps_input, hinput hop]

/-- Settles O9: the four entries of the delta table, and step a of the common sequence. -/
theorem deltaFieldsMoveThePointers : Obligations.DeltaFieldsMoveThePointers := by
  refine ⟨rfl, rfl, rfl, rfl, fun i op f s halu hruns => ?_⟩
  obtain ⟨t, v, -, hexec, heffect, -, -⟩ := aluCommonSequence i op f s halu hruns
  refine ⟨t, hexec, ?_, ?_⟩
  · rw [heffect.sp, BitVec.toNat_add]
  · rw [heffect.rp, BitVec.toNat_add]

/-! ### Where stores and the return meet -/

theorem readCell_congr_idx {s : State} {w w' : Word} (h : idx w = idx w') : s.readCell w = s.readCell w' :=
  congrArg s.mem.readCell h

section
variable {f : AluFields} {v : Word} {s t : State} (e : AluEffect f v s t)
include e

/-- Step f of a return reads the cell at the new `rp` as the stores left it (R176). -/
theorem effect_pc_return (hr2p : f.r2p = true) : t.pc = b2w (t.readCell t.rp) := by
  rw [e.pc, if_pos hr2p, e.rp]

theorem effect_pc_next (hr2p : f.r2p = false) : t.pc = s.pc + 1 := by
  rw [e.pc, hr2p]
  rfl

/-- The memory store is the last (R174). -/
theorem effect_readCell_memoryStore (hn2a : f.n2a = true) {w : Word} (hw : idx w = idx (b2w s.tos)) :
    t.readCell w = s.nos := by
  rw [e.readCell, if_pos ⟨hn2a, hw⟩]

/-- The data-stack store comes before the memory store alone (R173). -/
theorem effect_readCell_dataStore (ht2n : f.t2n = true)
    (hmiss : f.n2a = true → idx (b2w s.tos) ≠ idx t.sp) : t.readCell t.sp = s.tos := by
  rw [e.readCell, if_neg fun hit => hmiss hit.1 hit.2.symm, if_pos ⟨ht2n, congrArg idx e.sp⟩]

/-- The return-stack store may meet the data-stack store, which writes the same value (R172, R173). -/
theorem effect_readCell_returnStore (ht2r : f.t2r = true)
    (hmiss : f.n2a = true → idx (b2w s.tos) ≠ idx t.rp) : t.readCell t.rp = s.tos := by
  rw [e.readCell, if_neg fun hit => hmiss hit.1 hit.2.symm, if_pos (c := f.t2r = true ∧ _)
    ⟨ht2r, congrArg idx e.rp⟩, ite_self]

/-- A cell that no store names stays. -/
theorem effect_readCell_kept {w : Word} (hn2a : f.n2a = true → idx (b2w s.tos) ≠ idx w)
    (ht2n : f.t2n = true → idx (s.sp + deltaAddend f.dd) ≠ idx w) (ht2r : f.t2r = false) :
    t.readCell w = s.readCell w := by
  rw [e.readCell, if_neg fun hit => hn2a hit.1 hit.2.symm, if_neg fun hit => ht2n hit.1 hit.2.symm,
    if_neg fun hit => Bool.false_ne_true (ht2r.symm.trans hit.1)]

end

/-- Settles O37: of the stores that meet the later one wins, and the return reads after them all. -/
theorem aluStoreOrder : Obligations.AluStoreOrder := by
  intro i op f s t halu hruns hexec
  obtain ⟨t', v, -, hexec', e, -, -⟩ := aluCommonSequence i op f s halu hruns
  cases hexec.symm.trans hexec'
  refine ⟨fun hn2a => effect_readCell_memoryStore e hn2a rfl, effect_readCell_dataStore e,
    effect_readCell_returnStore e, fun hr2p hn2a hmeet => ?memory, fun hr2p ht2r hmiss => ?ret,
    fun hr2p ht2n hmeet hmiss => ?data, fun hr2p hrd ht2r ht2n hn2a => ?pop⟩
  case memory => rw [effect_pc_return e hr2p, effect_readCell_memoryStore e hn2a hmeet.symm]
  case ret => rw [effect_pc_return e hr2p, effect_readCell_returnStore e ht2r hmiss]
  case data =>
    rw [effect_pc_return e hr2p, readCell_congr_idx hmeet.symm,
      effect_readCell_dataStore e ht2n fun h => hmeet ▸ hmiss h]
  case pop =>
    have hkept := effect_readCell_kept e (w := t.rp) (fun h => by simp [hn2a] at h)
      (fun h => by simp [ht2n] at h) ht2r
    rw [effect_pc_return e hr2p, hkept, e.rp, hrd, add_deltaAddend_minusOne]

theorem step_of_running {s : State} (h : s.status = .running) : step s = exec (decode s.fetch) s := by
  rw [step_of_canStep (State.canStep_iff.mpr (.inl h)), State.resume_of_running s h]

/-- Settles O22: the store is done when the next fetch reads its cell. -/
theorem storedWordRunsNext : Obligations.StoredWordRunsNext := by
  refine ⟨fun i op f s halu hruns hn2a hr2p hmeet hrun => ?alu, fun n s hmeet hrun => ?lit⟩
  case alu =>
    obtain ⟨t, v, -, hexec, e, hstatus, -⟩ := aluCommonSequence i op f s halu hruns
    refine ⟨t, hexec, ?_⟩
    rw [step_of_running (hstatus.trans hrun), State.fetch, effect_pc_next e hr2p,
      effect_readCell_memoryStore e hn2a hmeet.symm]
  case lit =>
    refine ⟨_, exec_lit s n, ?_⟩
    have hrun' : (((s.pushData s.tos).setTos (litValue n)).advance).status = .running := hrun
    have hfetch : (((s.pushData s.tos).setTos (litValue n)).advance).fetch = s.tos :=
      readCell_lit s _ hmeet.symm
    rw [step_of_running hrun', hfetch]

/-- Settles O27: nothing wrote over the return address, so the return reads what the call pushed. -/
theorem callAndReturnRoundTrip : Obligations.CallAndReturnRoundTrip := by
  intro a s t hcall i op f u halu hruns hr2p hrd ht2r ht2n hn2a hrp hcell
  obtain ⟨v, top, -, hexec, e, -, -⟩ := aluCommonSequence i op f u halu hruns
  have hpushed : t.readCell t.rp = w2b (s.pc + 1) := by
    cases hcall
    exact readCell_call s _ rfl
  have hvrp : v.rp = u.rp := by rw [e.rp, hrd, add_deltaAddend_zero]
  have hpc : v.pc = b2w (w2b (s.pc + 1)) := by
    rw [effect_pc_return e hr2p, hvrp, effect_readCell_kept e hn2a ht2n ht2r, hcell, hpushed]
  refine ⟨v, hexec, ?_, ?_⟩
  · rw [hpc]
    split
    · next hlt => exact b2w_w2b_of_lt hlt
    · next hge => exact b2w_w2b_of_le (Nat.le_of_not_lt hge)
  · rw [hpc, idx_b2w_w2b]

/-! ### What a program sees of the devices -/

/-- The new top of every opcode but `rx` is that of the registers and the image alone (R109). -/
theorem newTop_of_sameCore {s s' : State} (h : SameCore s s') {op : Nat} (hop : op < 20) :
    newTop op s' = newTop op s := by
  obtain ⟨pc, tos, sp, rp, mem⟩ := s
  obtain ⟨pc', tos', sp', rp', mem'⟩ := s'
  obtain ⟨hpc, htos, hsp, hrp, hmem⟩ := h
  cases htos
  cases hsp
  cases hrp
  cases hmem
  interval_cases op <;> rfl

/-- An instruction with a reserved opcode faults, whatever the state (R200). -/
theorem exec_of_not_wellFormed {i : Instr} (hi : i.wellFormed = false) (s : State) :
    exec i s = .fault (.reservedAluOp s.fetch) := by
  obtain ⟨f, rfl, -⟩ | ⟨f, rfl, -⟩ | ⟨f, rfl, -⟩ | ⟨-, hfault⟩ | ⟨t, hwf, -⟩ := exec_cases i s
  · cases hi
  · cases hi
  · cases hi
  · exact hfault
  · rw [hi] at hwf
    cases hwf

theorem fetch_of_sameCore {s s' : State} (h : SameCore s s') : s'.fetch = s.fetch := by
  rw [State.fetch, State.fetch, h.readCell, h.pc]

/-- Every instruction but `rx` answers alike in two states with the same registers and image (R85). -/
theorem exec_sameCore {i : Instr} {s s' : State} (hi : ∀ f, i ≠ .aluRx f) (h : SameCore s s') :
    (∃ t t', exec i s = .next t ∧ exec i s' = .next t' ∧ SameCore t t') ∨
    (exec i s = .fault (.reservedAluOp s.fetch) ∧ exec i s' = .fault (.reservedAluOp s.fetch)) := by
  obtain ⟨n, rfl⟩ | ⟨a, rfl⟩ | ⟨a, rfl⟩ | ⟨a, rfl⟩ | ⟨op, f, halu⟩ := instr_class i
  · refine .inl ⟨_, _, exec_lit s n, exec_lit s' n, ?_⟩
    constructor <;> simp [h.pc, h.tos, h.sp, h.rp, h.mem]
  · refine .inl ⟨_, _, exec_call s a, exec_call s' a, ?_⟩
    constructor <;> simp [h.pc, h.tos, h.sp, h.rp, h.mem]
  · refine .inl ⟨_, _, exec_zbranch s a, exec_zbranch s' a, ?_⟩
    rw [zbranch_eq_setPc, zbranch_eq_setPc]
    constructor <;> simp [h.pc, h.tos, h.sp, h.rp, h.mem, h.readCell]
  · refine .inl ⟨_, _, exec_branch s a, exec_branch s' a, ?_⟩
    constructor <;> simp [h.tos, h.sp, h.rp, h.mem]
  · obtain hlt | heq | heq | hgt : op < 20 ∨ op = 20 ∨ op = 21 ∨ 22 ≤ op := by omega
    · obtain ⟨u, v, hv, hexec, hu, -, -⟩ := exec_newTop s halu (.inl hlt)
      obtain ⟨u', v', hv', hexec', hu', -, -⟩ := exec_newTop s' halu (.inl hlt)
      rw [newTop_of_sameCore h hlt, hv] at hv'
      cases hv'
      exact .inl ⟨_, _, hexec, hexec', ((hu.symm.trans h).trans hu').aluSteps f v⟩
    · subst heq
      exact absurd (aluInstr_of_aluForm? halu).1.symm (hi f)
    · subst heq
      obtain ⟨rfl, -⟩ := aluInstr_of_aluForm? halu
      exact .inl ⟨_, _, exec_aluBye f s, exec_aluBye f s', ⟨h.pc, h.tos, h.sp, h.rp, h.mem⟩⟩
    · have hwf : i.wellFormed = false := by
        rw [← Bool.not_eq_true, wellFormed_iff_definedOps halu]
        exact Nat.not_lt.mpr hgt
      have hfault' := exec_of_not_wellFormed hwf s'
      rw [fetch_of_sameCore h] at hfault'
      exact .inr ⟨exec_of_not_wellFormed hwf s, hfault'⟩

/-- Settles O54, from the two runs side by side. -/
theorem devicesAreSeenByRxAlone : Obligations.DevicesAreSeenByRxAlone := by
  intro i s s' hi h
  obtain ⟨t, t', hexec, hexec', hcore⟩ | ⟨hfault, hfault'⟩ := exec_sameCore hi h
  · refine ⟨fun u hu => ?_, fun r hr => ?_⟩
    · cases hexec.symm.trans hu
      exact ⟨t', hexec', hcore⟩
    · cases hexec.symm.trans hr
  · refine ⟨fun u hu => ?_, fun r hr => ?_⟩
    · cases hfault.symm.trans hu
    · cases hfault.symm.trans hr
      exact hfault'

end Sys2Proof.Proofs
end

section
/-! The ALU opcodes one by one (R180 to R200, R230 to R233): each one's base word, new top and frame. -/

open Sys2Proof.Machine Sys2Proof.Laws

namespace Sys2Proof.Proofs

/-- The high byte does not see what a mask drops from the low one. -/
theorem highByte_and_mask (w : Word) : highByte (w &&& 0xFF00#16) = highByte w := by
  have hmask : (0xFF00#16).extractLsb' 8 8 = BitVec.allOnes 8 := by decide
  rw [highByte, highByte, BitVec.extractLsb'_and, hmask, BitVec.and_allOnes]

/-- The high byte of an ALU word is its class and its opcode (R104, D1). -/
theorem highByte_encode_alu {i : Instr} {op : Nat} {f : AluFields} (h : i.aluForm? = some (op, f)) :
    highByte (encode i) = BitVec.ofNat 8 (0x60 + op) := by
  obtain ⟨rfl, hop⟩ := aluInstr_of_aluForm? h
  rw [encode, encodeWith_aluInstr _ _ hop, ← highByte_and_mask]
  refine (congrArg highByte (TableRow.encodeAlu_and (BitVec.ofNat 5 op) f)).trans ?_
  clear h
  interval_cases op <;> decide

/-- An opcode of 0 to 17: its meaning is steps a to f with its new top, which are the whole of it. -/
theorem aluCompletes_of_aluSteps {i : Instr} {base : Byte} {f : AluFields} {v w : Word} {s : State}
    (hform : i.aluForm? = some (base.toNat % 32, f)) (hbase : BitVec.ofNat 8 (0x60 + base.toNat % 32) = base)
    (hexec : exec i s = .next (s.aluSteps f v)) (hv : v = w) : AluCompletes i base f w s :=
  ⟨(highByte_encode_alu hform).trans hbase, hform, _, hexec, hv ▸ s.aluSteps_effect f v,
    s.aluSteps_environment f v⟩

/-! ### Opcodes 0 to 17 -/

/-- Settles O29: the new tops are the two snapshots of R170. -/
theorem aluCopyOpcodes : Obligations.AluCopyOpcodes := fun f s =>
  ⟨aluCompletes_of_aluSteps rfl rfl (exec_aluT f s) rfl,
    aluCompletes_of_aluSteps rfl rfl (exec_aluN f s) rfl⟩

theorem not_eq_ofNat_sub (w : Word) : ~~~w = BitVec.ofNat 16 (65535 - w.toNat) := by
  have := w.isLt
  apply BitVec.eq_of_toNat_eq
  rw [BitVec.toNat_not, BitVec.toNat_ofNat]
  omega

theorem sub_one_eq_ofNat_add (w : Word) : w - 1 = BitVec.ofNat 16 (w.toNat + 65535) := by
  apply BitVec.eq_of_toNat_eq
  rw [BitVec.toNat_sub, BitVec.toNat_ofNat, Nat.add_comm]
  rfl

theorem add_eq_ofNat_add (v w : Word) : v + w = BitVec.ofNat 16 (v.toNat + w.toNat) := by
  apply BitVec.eq_of_toNat_eq
  rw [BitVec.toNat_add, BitVec.toNat_ofNat]

/-- Settles O30: each new top in arithmetic modulo 2^16. -/
theorem aluArithmeticAndLogicOpcodes : Obligations.AluArithmeticAndLogicOpcodes := fun f s =>
  ⟨aluCompletes_of_aluSteps rfl rfl (exec_aluAdd f s)
      (add_eq_ofNat_add _ _),
    aluCompletes_of_aluSteps rfl rfl (exec_aluAnd f s) rfl,
    aluCompletes_of_aluSteps rfl rfl (exec_aluOr f s) rfl,
    aluCompletes_of_aluSteps rfl rfl (exec_aluXor f s) rfl,
    aluCompletes_of_aluSteps rfl rfl (exec_aluNot f s)
      (not_eq_ofNat_sub _),
    aluCompletes_of_aluSteps rfl rfl (exec_aluDec f s)
      (sub_one_eq_ofNat_add _)⟩

/-- Two's complement in plain arithmetic (R10, D17). -/
theorem toInt_eq_ite (v : Word) :
    v.toInt = if v.toNat < 32768 then (v.toNat : Int) else (v.toNat : Int) - 65536 := by
  rw [BitVec.toInt_eq_toNat_cond]
  split <;> split <;> omega

/-- Settles O31: the signed readings in plain arithmetic. -/
theorem aluSignedComparisonOpcode : Obligations.AluSignedComparisonOpcode := by
  intro f s
  refine aluCompletes_of_aluSteps rfl rfl (exec_aluLt f s) ?_
  rw [ltMask_eq, toInt_eq_ite, toInt_eq_ite]
  rfl

/-- Settles O32: each mask as the truth value it stands for. -/
theorem aluComparisonOpcodes : Obligations.AluComparisonOpcodes := fun f s =>
  ⟨aluCompletes_of_aluSteps rfl rfl (exec_aluEq f s) (eqMask_eq _ _),
    aluCompletes_of_aluSteps rfl rfl (exec_aluULt f s) (ultMask_eq _ _),
    aluCompletes_of_aluSteps rfl rfl (exec_aluZeroEq f s)
      (zeroMask_eq _)⟩

/-- A right shift divides, and by 16 or more it leaves nothing (D6). -/
theorem ushiftRight_eq_div (v : Word) (n : Nat) :
    v >>> n = if n < 16 then BitVec.ofNat 16 (v.toNat / 2 ^ n) else 0 := by
  split
  · apply BitVec.eq_of_toNat_eq
    rw [BitVec.toNat_ushiftRight, Nat.shiftRight_eq_div_pow, BitVec.toNat_ofNat,
      Nat.mod_eq_of_lt ((Nat.div_le_self _ _).trans_lt v.isLt)]
  · next hge => exact BitVec.ushiftRight_eq_zero (Nat.le_of_not_lt hge)

/-- A left shift multiplies modulo 2^16, and by 16 or more it leaves nothing (D6). -/
theorem shiftLeft_eq_mul (v : Word) (n : Nat) :
    v <<< n = if n < 16 then BitVec.ofNat 16 (v.toNat * 2 ^ n) else 0 := by
  split
  · apply BitVec.eq_of_toNat_eq
    rw [BitVec.toNat_shiftLeft, Nat.shiftLeft_eq, BitVec.toNat_ofNat]
  · next hge => exact BitVec.shiftLeft_eq_zero (Nat.le_of_not_lt hge)

/-- Settles O33: the shifts as division and multiplication. -/
theorem aluShiftOpcodes : Obligations.AluShiftOpcodes := fun f s =>
  ⟨aluCompletes_of_aluSteps rfl rfl (exec_aluShr f s)
      (ushiftRight_eq_div _ _),
    aluCompletes_of_aluSteps rfl rfl (exec_aluShl f s)
      (shiftLeft_eq_mul _ _)⟩

/-- Settles O34: the snapshot is read at the `rp` before step a. -/
theorem aluReturnTopOpcode : Obligations.AluReturnTopOpcode := fun f s =>
  aluCompletes_of_aluSteps rfl rfl (exec_aluR f s) rfl

/-- Settles O35: a byte address is its half as a cell index (R64). -/
theorem aluMemoryLoadOpcode : Obligations.AluMemoryLoadOpcode := fun f s =>
  aluCompletes_of_aluSteps rfl rfl (exec_aluLoad f s)
    (congrArg s.mem.readCell (idx_b2w s.tos))

/-- Settles O36: the depths are of the pointers before step a. -/
theorem aluDepthOpcodes : Obligations.AluDepthOpcodes := fun f s =>
  ⟨aluCompletes_of_aluSteps rfl rfl (exec_aluDepth f s) rfl,
    aluCompletes_of_aluSteps rfl rfl (exec_aluRDepth f s) rfl⟩

/-! ### Opcodes 18 to 21 -/

/-- The effect of steps a to f after an act on a device, from the state before it. -/
theorem aluEffect_after_device {s s' : State} (h : SameCore s s') (f : AluFields) (v : Word) :
    AluEffect f v s (s'.aluSteps f v) := (s'.aluSteps_effect f v).of_sameCore h

/-- Settles O38: the save takes the image first, and steps a to f leave the devices alone. -/
theorem saveWritesImageBeforeItsStores : Obligations.SaveWritesImageBeforeItsStores := by
  intro f s
  have henv := (s.save 32768).aluSteps_environment f s.tos
  exact ⟨highByte_encode_alu (i := .aluSave f) rfl, _, exec_aluSave f s,
    aluEffect_after_device (s.save_sameCore _) f _, henv.blockFile, henv.input, henv.output, henv.status⟩

/-- Settles O39: the save and opcode 0 run the same steps a to f on the same registers and image. -/
theorem saveIsInvisibleToTheProgram : Obligations.SaveIsInvisibleToTheProgram := by
  intro f s
  have henv := (s.save 32768).aluSteps_environment f s.tos
  have henv' := s.aluSteps_environment f s.tos
  refine ⟨_, _, exec_aluSave f s, exec_aluT f s, (s.save_sameCore 32768).aluSteps f s.tos,
    henv.input.trans henv'.input.symm, henv.output.trans henv'.output.symm,
    henv.status.trans henv'.status.symm, ?_⟩
  rw [State.aluSteps_diagnostics, State.save_diagnostics]
  split <;> rfl

theorem lowByte_eq_ofNat_mod (w : Word) : lowByte w = BitVec.ofNat 8 (w.toNat % 256) := by
  apply BitVec.eq_of_toNat_eq
  rw [lowByte, BitVec.extractLsb'_toNat, BitVec.toNat_ofNat, Nat.shiftRight_zero, Nat.mod_mod]

/-- Settles O40: the send comes before steps a to f, which leave the devices alone. -/
theorem txSendsLowByte : Obligations.TxSendsLowByte := by
  intro f s
  have henv := (s.outWrite (lowByte s.tos)).aluSteps_environment f s.nos
  refine ⟨highByte_encode_alu (i := .aluTx f) rfl, _, exec_aluTx f s,
    aluEffect_after_device (s.outWrite_sameCore _) f _, ?_, henv.input, henv.blockFile, henv.saves,
    henv.diagnostics, henv.status⟩
  rw [henv.output, State.outWrite_output, lowByte_eq_ofNat_mod]

theorem byteValue_eq_ofNat (b : Byte) : byteValue b = BitVec.ofNat 16 b.toNat := by
  apply BitVec.eq_of_toNat_eq
  rw [byteValue, BitVec.toNat_setWidth, BitVec.toNat_ofNat]

/-- Settles O41, by what the input stream answers. -/
theorem rxReadsStopsOrWaits : Obligations.RxReadsStopsOrWaits := by
  refine fun f s => ⟨highByte_encode_alu (i := .aluRx f) rfl, fun b hb => ?byte, fun hend hclosed => ?eof,
    fun hend hopen => ?pending⟩
  case byte =>
    have henv := s.consumeByte.aluSteps_environment f (byteValue b)
    rw [← byteValue_eq_ofNat]
    exact ⟨_, exec_aluRx_byte f s (InStream.answer_eq_byte.mpr hb),
      aluEffect_after_device s.consumeByte_sameCore f _, henv.input, henv.output, henv.blockFile,
      henv.saves, henv.diagnostics, henv.status⟩
  case eof => exact exec_aluRx_eof f s (InStream.answer_eq_eof.mpr ⟨hend, hclosed⟩)
  case pending => exact exec_aluRx_pending f s (InStream.answer_eq_pending.mpr ⟨hend, hopen⟩)

/-- Settles O42: the halt is the whole meaning, whatever the fields. -/
theorem byeHaltsWithOldTop : Obligations.ByeHaltsWithOldTop := fun f s =>
  ⟨highByte_encode_alu (i := .aluBye f) rfl, exec_aluBye f s⟩

/-! ### Opcodes 22 to 31 -/

/-- A step that fetches an ALU word with an opcode from 22 on faults with that word (R200, R261). -/
theorem stepWith_reserved (L : AluLayout) {s : State} (hs : s.canStep = true)
    (hclass : s.fetch &&& 0xE000 = 0x6000) (hop : 22 ≤ (s.fetch.extractLsb' L.op 5).toNat) :
    stepWith L s = .fault (.reservedAluOp s.fetch) := by
  rw [stepWith_of_canStep L hs, decodeWith_alu L hclass]
  have hform := aluInstr_aluForm? _ (s.fetch.extractLsb' L.op 5).isLt (aluFieldsOf L s.fetch)
  refine exec_of_not_wellFormed ?_ s.resume
  rw [← Bool.not_eq_true, wellFormed_iff_definedOps hform]
  exact Nat.not_lt.mpr hop

/-- Settles O43: the ten arms, and the step of any word that decodes to one of them. -/
theorem reservedOpcodesFault : Obligations.ReservedOpcodesFault := by
  refine ⟨fun f s => ⟨exec_reserved22 f s, exec_reserved23 f s, exec_reserved24 f s, exec_reserved25 f s,
    exec_reserved26 f s, exec_reserved27 f s, exec_reserved28 f s, exec_reserved29 f s,
    exec_reserved30 f s, exec_reserved31 f s⟩, fun L s => stepWith_reserved L, fun s hs hclass hop => ?_⟩
  have hfault : step s = .fault (.reservedAluOp s.fetch) :=
    stepWith_reserved Config.aluLayout hs hclass hop
  exact ⟨hfault, State.afterStep_of_fault hfault⟩

end Sys2Proof.Proofs
end

section
/-! The image loader (R80 to R86): what a load puts in each cell, and that it undoes a save. -/

open Sys2Proof.Machine

namespace Sys2Proof.Proofs

/-- A load of enough bytes sets its cells from them, two bytes each, and leaves every other cell. -/
theorem loadCells_of_le {n : Nat} {file : List Byte} (k : Nat) (m : Memory) (h : 2 * n ≤ file.length) :
    ∃ m', loadCells n k file m = some m' ∧
      (∀ j < n, ∃ lo hi, file[2 * j]? = some lo ∧ file[2 * j + 1]? = some hi ∧
        m'.readCell (k + j) = wordOfBytes lo hi) ∧
      ∀ c, c < k → m'.readCell c = m.readCell c := by
  induction n generalizing k file m with
  | zero => exact ⟨m, rfl, fun j hj => absurd hj j.not_lt_zero, fun _ _ => rfl⟩
  | succ n ih =>
    match file, h with
    | lo :: hi :: rest, h =>
      have hrest : 2 * n ≤ rest.length := by
        simp only [List.length_cons] at h
        omega
      obtain ⟨m', hload, hcells, hbelow⟩ := ih (k + 1) (m.writeCell k (wordOfBytes lo hi)) hrest
      refine ⟨m', hload, fun j hj => ?_, fun c hc => ?_⟩
      · cases j with
        | zero =>
          refine ⟨lo, hi, rfl, rfl, ?_⟩
          rw [Nat.add_zero, hbelow k k.lt_succ_self, Memory.readCell_writeCell, if_pos rfl]
        | succ j =>
          rw [show k + (j + 1) = k + 1 + j by omega]
          exact hcells j (Nat.lt_of_succ_lt_succ hj)
      · rw [hbelow c (hc.trans k.lt_succ_self), Memory.readCell_writeCell, if_neg hc.ne]

/-- A load of `n` cells reads `2 * n` bytes and no more (R83). -/
theorem loadCells_take (n k : Nat) (file : List Byte) (m : Memory) :
    loadCells n k (file.take (2 * n)) m = loadCells n k file m := by
  induction n generalizing k file m with
  | zero => rfl
  | succ n ih =>
    match file with
    | [] => rfl
    | [_] => rfl
    | lo :: hi :: rest => exact ih (k + 1) rest _

/-- A short read fails (R82). -/
theorem loadCells_of_lt {n : Nat} {file : List Byte} (k : Nat) (m : Memory) (h : file.length < 2 * n) :
    loadCells n k file m = none := by
  induction n generalizing k file m with
  | zero => exact absurd h (Nat.not_lt_zero _)
  | succ n ih =>
    match file, h with
    | [], _ => rfl
    | [_], _ => rfl
    | lo :: hi :: rest, h =>
      refine ih (k + 1) (m.writeCell k (wordOfBytes lo hi)) ?_
      simp only [List.length_cons] at h
      omega

/-- A word from its two bytes is, as a number, their sum by place (R80). -/
theorem wordOfBytes_toNat (lo hi : Byte) : (wordOfBytes lo hi).toNat = lo.toNat + 256 * hi.toNat := by
  have hhi : (hi.setWidth 16 <<< 8).toNat = 2 ^ 8 * hi.toNat := by
    have := hi.isLt
    rw [BitVec.toNat_shiftLeft, BitVec.toNat_setWidth_of_le (by decide), Nat.shiftLeft_eq]
    omega
  rw [wordOfBytes, BitVec.toNat_or, BitVec.toNat_setWidth_of_le (by decide), hhi, Nat.or_comm,
    ← Nat.two_pow_add_eq_or_of_lt lo.isLt, Nat.add_comm]

/-- Settles O45, from the loader's cells at first cell 0. -/
theorem loadSetsEveryCell : Obligations.LoadSetsEveryCell := by
  intro file m hlen
  obtain ⟨m', hload, hcells, -⟩ := loadCells_of_le (n := 32768) 0 m hlen
  refine ⟨⟨m', hload, fun k hk => ?_⟩, (loadCells_take 32768 0 file m).symm⟩
  obtain ⟨lo, hi, hlo, hhi, hcell⟩ := hcells k hk
  rw [Nat.zero_add] at hcell
  exact ⟨lo, hi, hlo, hhi, hcell ▸ wordOfBytes_toNat lo hi⟩

/-- Settles O46: before the first run the read is short, and after it there is no load. -/
theorem shortLoadGivesNoState : Obligations.ShortLoadGivesNoState := by
  intro s
  by_cases hidle : s.status = .idle
  · refine ⟨if_pos hidle, fun file hlen => ?_⟩
    have hshort : loadImage file s.mem = none := loadCells_of_lt (n := 32768) 0 s.mem hlen
    rw [State.load_of_idle hidle, hshort]
    rfl
  · exact ⟨State.load_of_not_idle hidle none, fun file _ => State.load_of_not_idle hidle (some file)⟩

/-- An image in canonical form holds nothing beyond its 32768 cells. -/
theorem readByte_of_wf_of_le {m : Memory} (h : m.wf = true) {a : Nat} (ha : 65536 ≤ a) : m.readByte a = 0 :=
  Memory.readByte_of_forall_ne fun c hc =>
    (((m.wf_iff.mp h).2 c hc).1.trans_le ha).ne

/-- Images in canonical form with the same 32768 cells are one image. -/
theorem eq_of_wf_of_readCell {m m' : Memory} (h : m.wf = true) (h' : m'.wf = true)
    (hcells : ∀ k < 32768, m.readCell k = m'.readCell k) : m = m' := by
  refine Memory.ext_of_wf h h' fun a => ?_
  by_cases ha : a < 65536
  · obtain ⟨k, rfl | rfl⟩ := Nat.even_or_odd' a
    · rw [← Memory.lowByte_readCell, ← Memory.lowByte_readCell, hcells k (by omega)]
    · rw [← Memory.highByte_readCell, ← Memory.highByte_readCell, hcells k (by omega)]
  · rw [readByte_of_wf_of_le h (Nat.le_of_not_lt ha), readByte_of_wf_of_le h' (Nat.le_of_not_lt ha)]

/-- Settles O47: the load sets each cell to the one that was saved, and keeps the canonical form. -/
theorem saveThenLoadRestoresImage : Obligations.SaveThenLoadRestoresImage := by
  intro m hm
  have hlen : 2 * 32768 ≤ (serialize 32768 m).length := (serializeFrom_length m 32768 0).ge
  obtain ⟨m', hload, hcells, -⟩ := loadCells_of_le 0 [] hlen
  have hm' : m'.wf = true := loadCells_wf Memory.nil_wf (by decide) hload
  have heq : m' = m := eq_of_wf_of_readCell hm' hm fun k hk => by
    obtain ⟨lo, hi, hlo, hhi, hcell⟩ := hcells k hk
    obtain ⟨hlo', hhi'⟩ := serializeFrom_getElem? m 0 hk
    cases hlo.symm.trans hlo'
    cases hhi.symm.trans hhi'
    rwa [Nat.zero_add, wordOfBytes_lowByte_highByte] at hcell
  exact hload.trans (congrArg some heq)

end Sys2Proof.Proofs
end

section
/-! Words as numbers (R104, R114, R115) and the two-word literal. -/

open Sys2Proof.Machine

namespace Sys2Proof.Proofs

/-- The place of a delta in the table of R105. -/
def deltaNumber : Delta → Nat
  | .zero => 0
  | .plusOne => 1
  | .minusTwo => 2
  | .minusOne => 3

theorem deltaNumber_eq_bits (d : Delta) : deltaNumber d = d.bits.toNat := by
  cases d <;> rfl

/-- The number of an ALU word from the numbers of its fields (R104). -/
def aluNumber (op : Nat) (f : AluFields) : Nat :=
  0x6000 + 256 * op + 128 * f.t2n.toNat + 64 * f.t2r.toNat + 32 * f.n2a.toNat + 16 * f.r2p.toNat +
    4 * deltaNumber f.rd + deltaNumber f.dd

/-- A flag is the binary digit at its place in the word's number. -/
theorem getLsbD_ofNat_digit {x k : Nat} {b : Bool} (hk : k < 16) (h : x / 2 ^ k % 2 = b.toNat) :
    (BitVec.ofNat 16 x).getLsbD k = b := by
  rw [BitVec.getLsbD_ofNat, decide_eq_true hk, Bool.true_and, Nat.testBit_eq_decide_div_mod_eq, h]
  cases b <;> rfl

/-- A field of `n` bits is the digits at its place in the word's number. -/
theorem extract_ofNat_digits {x k n : Nat} {v : BitVec n} (hk : k + n ≤ 16)
    (h : x / 2 ^ k % 2 ^ n = v.toNat) : (BitVec.ofNat 16 x).extractLsb' k n = v := by
  apply BitVec.eq_of_toNat_eq
  rw [BitVec.extractLsb'_toNat, BitVec.toNat_ofNat, Nat.shiftRight_eq_div_pow, ← h,
    ← Nat.sub_add_cancel (show k ≤ 16 by omega), Nat.add_comm, Nat.pow_add, Nat.mod_mul_right_div_self]
  exact Nat.mod_mod_of_dvd _ (Nat.pow_dvd_pow 2 (by omega))

/-- The digits of an ALU word's number at each field's place. -/
theorem aluNumber_digits {op : Nat} (hop : op < 32) (f : AluFields) :
    aluNumber op f / 8192 = 3 ∧ aluNumber op f / 2 ^ 8 % 2 ^ 5 = op ∧
    aluNumber op f / 2 ^ 7 % 2 = f.t2n.toNat ∧ aluNumber op f / 2 ^ 6 % 2 = f.t2r.toNat ∧
    aluNumber op f / 2 ^ 5 % 2 = f.n2a.toNat ∧ aluNumber op f / 2 ^ 4 % 2 = f.r2p.toNat ∧
    aluNumber op f / 2 ^ 2 % 2 ^ 2 = f.rd.bits.toNat ∧
    aluNumber op f / 2 ^ 0 % 2 ^ 2 = f.dd.bits.toNat := by
  have ht2n := f.t2n.toNat_lt
  have ht2r := f.t2r.toNat_lt
  have hn2a := f.n2a.toNat_lt
  have hr2p := f.r2p.toNat_lt
  have hrd := f.rd.bits.isLt
  have hdd := f.dd.bits.isLt
  rw [aluNumber, deltaNumber_eq_bits, deltaNumber_eq_bits]
  omega

theorem decode_aluNumber {op : Nat} (hop : op < 32) (f : AluFields) :
    decode (BitVec.ofNat 16 (aluNumber op f)) = aluInstr op f := by
  obtain ⟨hclass, hopcode, ht2n, ht2r, hn2a, hr2p, hrd, hdd⟩ := aluNumber_digits hop f
  have hop' : (BitVec.ofNat 16 (aluNumber op f)).extractLsb' 8 5 = BitVec.ofNat 5 op :=
    extract_ofNat_digits (by decide) (by rw [hopcode, BitVec.toNat_ofNat, Nat.mod_eq_of_lt hop])
  have hfields : aluFieldsOf Config.aluLayout (BitVec.ofNat 16 (aluNumber op f)) = f := by
    simp only [aluFieldsOf, Config.aluLayout, getLsbD_ofNat_digit (by decide) ht2n,
      getLsbD_ofNat_digit (by decide) ht2r, getLsbD_ofNat_digit (by decide) hn2a,
      getLsbD_ofNat_digit (by decide) hr2p, extract_ofNat_digits (by decide) hrd,
      extract_ofNat_digits (by decide) hdd, Delta.ofBits_bits]
  have hword : BitVec.ofNat 16 (aluNumber op f) &&& 0xE000#16 = 0x6000#16 := by
    rw [← Nat.div_add_mod' (aluNumber op f) 8192, hclass]
    exact classBits_ofNat 3 (Nat.mod_lt _ (by decide))
  rw [decode, decodeWith_alu _ hword, hfields]
  refine congrArg (aluInstr · f) ?_
  rw [show Config.aluLayout.op = 8 from rfl, hop', BitVec.toNat_ofNat, Nat.mod_eq_of_lt hop]

/-- Settles O5: every field of the number is at its place in the word. -/
theorem aluWordsByTheirFields : Obligations.AluWordsByTheirFields := fun op hop f =>
  (congrArg Instr.aluForm? (decode_aluNumber hop f)).trans (aluInstr_aluForm? op hop f)

/-- Settles O6, word by word. -/
theorem sampleWordsDecode : Obligations.SampleWordsDecode := by
  refine ⟨?_, ?_, ?_, ?_, ?_, ?_, ?_, ?_, ?_, ?_⟩ <;> decide

/-- Settles O7, by assembling the thirty rows. -/
theorem pseudoInstructionWords : Obligations.PseudoInstructionWords := by
  unfold Obligations.PseudoInstructionWords
  decide

/-! ### The wide literal -/

/-- The literal's word as a number, for every payload. -/
theorem encode_lit_ofNat {n : Nat} (hn : n < 32768) :
    encode (.lit (BitVec.ofNat 15 n)) = BitVec.ofNat 16 (0x8000 + n) := by
  refine eq_ofNat_of_toNat_eq ((encode_lit_toNat _).trans ?_)
  rw [BitVec.toNat_ofNat, Nat.mod_eq_of_lt hn]

theorem assemble_wide_lit {n : Nat} (hn : 32768 ≤ n) (hn' : n < 65536) :
    (AsmLine.lit n).assemble = some [BitVec.ofNat 16 (0x8000 + (65535 - n)), 0x6600#16] := by
  have hwf : (AsmLine.lit n).wellFormed = true := decide_eq_true hn'
  have hexpand : (AsmLine.lit n).expand = some [.lit (BitVec.ofNat 15 (65535 - n)), .aluNot {}] := by
    rw [AsmLine.expand, if_pos hwf]
    exact if_neg (Nat.not_lt.mpr hn)
  have hnot : encode (.aluNot {}) = 0x6600#16 := by decide
  rw [AsmLine.assemble_eq, hexpand, ← encode_lit_ofNat (by omega), ← hnot]
  rfl

/-- The payload of the first word is the complement of the constant (R115). -/
theorem litValue_complement {n : Nat} (hn : 32768 ≤ n) (hn' : n < 65536) :
    litValue (BitVec.ofNat 15 (65535 - n)) = ~~~(BitVec.ofNat 16 n) := by
  apply BitVec.eq_of_toNat_eq
  rw [litValue, BitVec.toNat_setWidth_of_le (by decide), BitVec.toNat_not, BitVec.toNat_ofNat,
    BitVec.toNat_ofNat]
  omega

/-- Settles O8: the literal pushes the complement, and `invert` (R186) without fields changes `tos` and
`pc` alone. -/
theorem wideLiteralTakesTwoWords : Obligations.WideLiteralTakesTwoWords := by
  intro n hn hn'
  refine ⟨assemble_wide_lit hn hn', fun s => ?_⟩
  have hlit := literalAndAddressFormats.1 (65535 - n) (by omega)
  have hnot : decode 0x6600#16 = .aluNot {} := by decide
  rw [hlit, hnot]
  have htos := litValue_complement hn hn'
  refine ⟨_, _, exec_lit s _, exec_aluNot {} _, htos, ?_, ?_, ?_, ?_⟩
  · rw [State.aluSteps_tos, State.advance_tos, State.setTos_tos, htos, BitVec.not_not]
  · rw [State.aluSteps_sp, add_deltaAddend_zero]
    rfl
  · rw [State.aluSteps_pc, if_neg Bool.false_ne_true, State.advance_pc, BitVec.add_assoc]
    rfl
  · rw [State.aluSteps_sp, add_deltaAddend_zero]
    rw [State.readCell_congr (State.aluSteps_mem _ _ _)]
    exact readCell_lit s _ rfl

end Sys2Proof.Proofs
end

section
/-! The acts of the host between runs (R280 to R286) and the dispatch loop (R140, R141, R276, R304). -/

open Sys2Proof.Machine

namespace Sys2Proof.Proofs

/-! ### Reset and run entry -/

/-- Settles O11, field by field. -/
theorem resetState : Obligations.ResetState :=
  ⟨rfl, rfl, rfl, rfl, rfl, Memory.readByte_nil⟩

/-- A run entry that answers a state found no run in progress. -/
theorem enterRun_eq_some {s e : State} {i : InStream} {o : List Byte} (h : s.enterRun i o = some e) :
    e = ((((((s.setPc 0).setTos 0).setSp 8192).setRp 8256).setInput i).setOutput o).resume := by
  cases hs : s.canStep
  · exact Option.some.inj (h.symm.trans (State.enterRun_of_not_canStep i o hs))
  · cases h.symm.trans (State.enterRun_of_canStep i o hs)

/-- Settles O12, by everything a run entry does. -/
theorem runEntrySetsRegisters : Obligations.RunEntrySetsRegisters := fun _ i o hs =>
  ⟨_, State.enterRun_of_not_canStep i o hs, rfl, rfl, rfl, rfl, rfl, rfl, rfl, rfl⟩

/-- Settles O13: both pointers stand at their bases, so the depths are 0 and the first pushes go one cell
above. -/
theorem freshStacks : Obligations.FreshStacks := by
  intro s e i o h
  have hpc : e.pc = 0 := by rw [enterRun_eq_some h]; rfl
  have htos : e.tos = 0 := by rw [enterRun_eq_some h]; rfl
  have hsp : e.sp = 8192 := by rw [enterRun_eq_some h]; rfl
  have hrp : e.rp = 8256 := by rw [enterRun_eq_some h]; rfl
  have hmem : e.mem = s.mem := by rw [enterRun_eq_some h]; rfl
  refine ⟨?nos, fun f => ⟨_, exec_aluDepth f e, ?depth⟩, fun f => ⟨_, exec_aluRDepth f e, ?rdepth⟩,
    fun n => ⟨_, exec_lit e n, ?litSp, ?litCell⟩, fun a => ⟨_, exec_call e a, ?callRp, ?callCell⟩⟩
  case nos => rw [State.nos, hsp, State.readCell_congr hmem]
  case depth =>
    rw [State.aluSteps_tos, State.depth, hsp]
    decide
  case rdepth =>
    rw [State.aluSteps_tos, State.rdepth, hrp]
    decide
  case litSp =>
    rw [State.advance_sp, State.setTos_sp, State.pushData_sp, hsp]
    decide
  case litCell => rw [readCell_lit e _ (by rw [hsp]; decide), htos]
  case callRp =>
    rw [State.setPc_rp, State.pushReturn_rp, hrp]
    decide
  case callCell =>
    rw [readCell_call e _ (by rw [hrp]; decide), hpc]
    decide

/-! ### Loads and saves of the host -/

/-- Settles O14, act by act. -/
theorem hostActsBetweenRunsAlone : Obligations.HostActsBetweenRunsAlone := by
  refine fun s => ⟨fun hs => ⟨fun i o => State.enterRun_of_canStep i o hs, State.hostSave_of_canStep hs⟩,
    State.load_of_not_idle, State.supplyInput_setInput, rfl, fun hidle file hlen => ?_, fun hs i o => ?_⟩
  · obtain ⟨⟨m, hload, -⟩, -⟩ := loadSetsEveryCell file s.mem hlen
    refine ⟨m, hload, ?_⟩
    rw [State.load_of_idle hidle, hload]
    rfl
  · rw [State.enterRun_of_not_canStep i o hs]
    rfl

/-- A save leaves the registers, the image, the streams and the status, and reports its outcome (R85); the
block file is the sink if the path is its own. -/
theorem hostSave_frame {s t : State} {path : String} {n : Nat}
    (ht : t = if path = Config.blockPath then s.save n else s.reportSave) :
    SameCore s t ∧ t.input = s.input ∧ t.output = s.output ∧ t.status = s.status ∧
      t.saves = s.saves + 1 ∧
      t.diagnostics = s.diagnostics + (if Config.saveSucceeds s.saves = true then 0 else 1) ∧
      t.blockFile = if path = Config.blockPath then s.sinkAfterSave n else s.blockFile := by
  have hdiag : s.reportSave.diagnostics =
      s.diagnostics + (if Config.saveSucceeds s.saves = true then 0 else 1) := by
    rw [State.reportSave_diagnostics]
    split <;> rfl
  by_cases hpath : path = Config.blockPath
  · rw [if_pos hpath] at ht ⊢
    subst ht
    exact ⟨s.save_sameCore n, rfl, rfl, rfl, rfl, hdiag, rfl⟩
  · rw [if_neg hpath] at ht ⊢
    subst ht
    exact ⟨s.reportSave_sameCore, rfl, rfl, rfl, rfl, hdiag, rfl⟩

/-- Settles O15: the count is checked first, and the sink is what the draw says. -/
theorem hostSaveDrawsAndReports : Obligations.HostSaveDrawsAndReports := fun s path n hs =>
  ⟨State.hostSave_of_count path, fun h1 h2 =>
    ⟨_, _, State.hostSave_of_not_canStep hs path h1 h2, s.sinkAfterSave_eq n, hostSave_frame rfl⟩⟩

/-! ### The dispatch loop -/

/-- Settles O16: the fetch reads the cell at `pc`, and `resume` sets the status alone. -/
theorem stepRunsTheDecodedInstruction : Obligations.StepRunsTheDecodedInstruction := by
  have key : ∀ (L : AluLayout) (s : State) (i : Instr), s.status = .running ∨ s.status = .waiting →
      decodeWith L (s.mem.readCell (s.pc.toNat % 32768)) = i →
      stepWith L s = exec i { s with status := .running } := by
    rintro L s _ hs rfl
    exact stepWith_of_canStep L (State.canStep_iff.mpr hs)
  exact ⟨key, key Config.aluLayout⟩

/-- Settles O17, under each layout and the default one. -/
theorem endedRunHasNoStep : Obligations.EndedRunHasNoStep := fun L _ hrun hwait =>
  have hs := State.canStep_eq_false_iff.mpr ⟨hrun, hwait⟩
  ⟨stepWith_of_not_canStep L hs, step_of_not_canStep hs⟩

/-- `branch 0` at cell 0 leads back to the same state (R304). -/
theorem step_zeroImage {s : State} (hmem : s.mem = []) (hpc : s.pc = 0) (hrun : s.status = .running) :
    step s = .next s := by
  have hfetch : decode s.fetch = .branch 0 := by
    rw [State.fetch, State.readCell_def, hmem, Memory.readCell_nil]
    decide
  have hself : s.setPc (targetOf 0) = s := by
    cases s
    cases hpc
    rfl
  rw [step_of_running hrun, hfetch, exec_branch, hself]

/-- A state that steps to itself stays after any number of steps. -/
theorem run_of_step_self {M : Host.Core} {s : M.State} (h : M.step s = .next s) (k : Nat) :
    M.run k s = .next s := by
  induction k with
  | zero => rfl
  | succ k ih =>
    rw [Host.Core.run, h]
    exact ih

/-- Settles O21, by induction on the number of steps. -/
theorem zeroImageLoopsForever : Obligations.ZeroImageLoopsForever := fun _ hmem hpc hrun =>
  run_of_step_self (M := Sys2Proof.core) (step_zeroImage hmem hpc hrun)

/-! ### A wait and its end -/

/-- A step that fetches `rx` runs it with the status set to running. -/
theorem step_rx {s : State} {f : AluFields} (hs : s.canStep = true) (hrx : decode s.fetch = .aluRx f) :
    step s = exec (.aluRx f) s.resume := by
  rw [step_of_canStep hs, hrx]

theorem step_rx_pending {s : State} {f : AluFields} (hs : s.canStep = true)
    (hrx : decode s.fetch = .aluRx f) (hin : s.input.answer = .pending) : step s = .next s.wait :=
  (step_rx hs hrx).trans (exec_aluRx_pending f s.resume hin)

theorem step_rx_eof {s : State} {f : AluFields} (hs : s.canStep = true)
    (hrx : decode s.fetch = .aluRx f) (hin : s.input.answer = .eof) : step s = .next s.cleanStop :=
  (step_rx hs hrx).trans (exec_aluRx_eof f s.resume hin)

/-- The byte becomes the new top of steps a to f, from the registers and the image of any state that shares
them (R232). -/
theorem step_rx_byte {s t : State} {f : AluFields} {b : Byte} (h : SameCore s t) (ht : t.canStep = true)
    (hrx : decode t.fetch = .aluRx f) (hin : t.input.answer = .byte b) :
    ∃ u, step t = .next u ∧ AluEffect f (byteValue b) s u ∧ u.input = t.input.advance ∧
      u.output = t.output ∧ u.status = .running := by
  have hcore : SameCore s t.resume.consumeByte :=
    (h.trans t.resume_sameCore).trans t.resume.consumeByte_sameCore
  have henv := t.resume.consumeByte.aluSteps_environment f (byteValue b)
  exact ⟨_, (step_rx ht hrx).trans (exec_aluRx_byte f t.resume hin), aluEffect_after_device hcore f _,
    henv.input, henv.output, henv.status⟩

theorem supplyInput_of_open {s : State} (h : s.input.closed = false) (bytes : List Byte) :
    s.supplyInput bytes = s.setInput { s.input with bytes := s.input.bytes ++ bytes } := by
  rw [State.supplyInput, h]
  rfl

/-- Settles O20: the wait and the host's act change the status and the stream alone, so the same `rx` is
fetched again and the stream's new answer decides. -/
theorem waitKeepsStateAndResumes : Obligations.WaitKeepsStateAndResumes := by
  intro s f hs hrx hpos hopen
  have hpending : s.input.answer = .pending := InStream.answer_eq_pending.mpr ⟨hpos.ge, hopen⟩
  refine ⟨s.wait, step_rx_pending hs hrx hpending, rfl, step_rx_pending rfl hrx hpending,
    fun b bs => ?supplied, ?closed⟩
  case supplied =>
    rw [supplyInput_of_open (s := s.wait) hopen]
    have hbyte : InStream.answer { s.input with bytes := s.input.bytes ++ b :: bs } = .byte b := by
      rw [InStream.answer_eq_byte, hpos, List.getElem?_append_right le_rfl, Nat.sub_self]
      rfl
    exact step_rx_byte ⟨rfl, rfl, rfl, rfl, rfl⟩ rfl hrx hbyte
  case closed =>
    have heof : s.wait.closeInput.input.answer = .eof := InStream.answer_eq_eof.mpr ⟨hpos.ge, rfl⟩
    exact step_rx_eof rfl hrx heof

end Sys2Proof.Proofs
end
